-- ==== Sys2Proof/Word.lean ====
section
/-! DEFINITION. The engine's word types (00_scope.md R6) and the accumulator pair (10_state.md R13, R14). -/

namespace Sys2Proof

/-- The addressable unit of buffer memory, 8 bits (00_scope.md R6). -/
abbrev Byte := BitVec 8

/-- A 64-bit register value, address or length (00_scope.md R6: AW = LW = 64). -/
abbrev Word64 := BitVec 64

/-- A command descriptor of 136 bits, bit 135 the most significant (30_encoding.md R50). -/
abbrev Descriptor := BitVec 136

/-- An accumulator of two running sums of `W` bits: `lo` the sum of the words, `hi` the running sum of
`lo` (00_scope.md R2, 40_word_accumulator.md R70). At `W = 64` it is a Checksum128. -/
structure Pair (W : Nat) where
  hi : BitVec W
  lo : BitVec W
deriving DecidableEq, Repr

/-- The accumulator a fold starts from (40_word_accumulator.md R72). -/
def Pair.zero (W : Nat) : Pair W := ⟨0#W, 0#W⟩

end Sys2Proof
end

