-- ==== Sys2Proof/Config.lean ====
section
/-! DEFINITION. What one engine instance fixes (00_scope.md R5) and what its platform fixes (20_memory.md R44).
The spec leaves N and BLOCK_SIZE OPEN, so they are constants without a body: no proof can see their values. -/

namespace Sys2Proof

/-- A range of byte addresses `base, …, base + size - 1`. -/
structure Region where
  base : Word64
  size : Nat
deriving DecidableEq, Repr

/-- The two parameters of an instance (00_scope.md R5): the stripe count N and BLOCK_SIZE, as the values the
hardwired 64-bit registers CFG_N and CFG_BS hold (10_state.md R17). -/
structure Params where
  n : Word64
  blockSize : Word64
deriving DecidableEq, Repr

/-- N of this instance before it is made legal; OPEN, log entry 4 (DESIGN CHOICE, safe). -/
opaque Config.openStripes : Word64

/-- The requested block size before the source's rounding; OPEN, log entry 4 (DESIGN CHOICE, safe). -/
opaque Config.openBlock : Word64

/-- N of this instance: any value from 1 to 2^64 - 1 (00_scope.md R5). -/
def Config.stripeCount : Word64 :=
  if Config.openStripes = 0#64 then 1#64 else Config.openStripes

/-- BLOCK_SIZE of this instance: any positive multiple of 8 below 2^64 (00_scope.md R5; the source's software
rounds a request "down to a multiple of 8", 70_reset_and_hazards.md R151). -/
def Config.blockSize : Word64 :=
  let rounded := BitVec.ofNat 64 (Config.openBlock.toNat / 8 * 8)
  if rounded = 0#64 then 8#64 else rounded

/-- The parameters of this instance. -/
def Config.params : Params := ⟨Config.stripeCount, Config.blockSize⟩

end Sys2Proof
end

