-- ==== Sys2Proof/Syntax.lean ====
section
/-! DEFINITION. What the host can ask of the engine: the four commands (30_encoding.md R52), the registers of the
read port (10_state.md R19), the host's actions (70_reset_and_hazards.md R164, R165) and the lines of the spec's
assembler notation (30_encoding.md R58). -/

namespace Sys2Proof

/-- The commands, one constructor per row of spec/opcode_table.json. A length counts bytes (30_encoding.md R53). -/
inductive Instr where
  /-- F64 addr, len: whole-buffer Fletcher-64 (42_fletcher64.md R90). -/
  | f64 (addr len : Word64)
  /-- F128 addr, len: whole-buffer Fletcher-128 (43_fletcher128.md R100). -/
  | f128 (addr len : Word64)
  /-- SCLR: zero the StripeSet (44_striped128.md R110); its `addr` and `len` fields are ignored (30_encoding.md R55). -/
  | sclr
  /-- SUPD addr, len: fold one chunk into the StripeSet (44_striped128.md R112). -/
  | supd (addr len : Word64)
deriving DecidableEq, Repr

/-- The registers the host's read port names (10_state.md R19). -/
inductive RegName where
  | res64
  | res128Lo
  | res128Hi
  | cfgN
  | cfgBs
  | stripeLo (i : Nat)
  | stripeHi (i : Nat)
deriving DecidableEq, Repr

/-- One action of the host (70_reset_and_hazards.md R164, R165). -/
inductive HostAction where
  /-- A command descriptor, handed over whole and by value (30_encoding.md R50). -/
  | command (d : Descriptor)
  /-- `RD`: a register read through the read port (10_state.md R19). -/
  | read (rsel : Word64)
  /-- The host writes one byte of its buffer memory, between two actions (70_reset_and_hazards.md R164). -/
  | write (addr : Word64) (b : Byte)
  /-- The reset event (70_reset_and_hazards.md R150). -/
  | reset
deriving DecidableEq, Repr

/-- One line of the spec's assembler notation (30_encoding.md R58); operands are written as unsigned numbers. -/
inductive AsmLine where
  | f64 (addr len : Nat)
  | f128 (addr len : Nat)
  | sclr
  | supd (addr len : Nat)
  | rd (r : RegName)
deriving DecidableEq, Repr

end Sys2Proof
end

