-- ==== Sys2Proof/WellFormed.lean ====
section
/-! DEFINITION. The checks on what the host writes down: a command's buffer (20_memory.md R33), an instance's
parameters (00_scope.md R5), an assembler line's operands (30_encoding.md R58). -/

namespace Sys2Proof

/-- A command is well formed when its buffer does not wrap the address space (20_memory.md R33); every bit of both
operand fields is otherwise free (30_encoding.md R53), and SCLR has no operand (R55). -/
def Instr.wellFormed : Instr → Bool
  | .f64 addr len => decide (addr.toNat + len.toNat ≤ 2 ^ 64)
  | .f128 addr len => decide (addr.toNat + len.toNat ≤ 2 ^ 64)
  | .sclr => true
  | .supd addr len => decide (addr.toNat + len.toNat ≤ 2 ^ 64)

/-- The parameters of an engine this spec describes: N >= 1, BLOCK_SIZE >= 8, BLOCK_SIZE mod 8 = 0 (00_scope.md R5). -/
def Params.legal (p : Params) : Bool :=
  decide (1 ≤ p.n.toNat) && decide (8 ≤ p.blockSize.toNat) && decide (p.blockSize.toNat % 8 = 0)

/-- An assembler line's operands are below 2^64 (30_encoding.md R58), a register name's select number too. -/
def AsmLine.wellFormed : AsmLine → Bool
  | .f64 addr len => decide (addr < 2 ^ 64) && decide (len < 2 ^ 64)
  | .f128 addr len => decide (addr < 2 ^ 64) && decide (len < 2 ^ 64)
  | .sclr => true
  | .supd addr len => decide (addr < 2 ^ 64) && decide (len < 2 ^ 64)
  | .rd (.stripeLo i) => decide (0x100 + 2 * i < 2 ^ 64)
  | .rd (.stripeHi i) => decide (0x100 + 2 * i + 1 < 2 ^ 64)
  | .rd _ => true

end Sys2Proof
end

