-- ==== Sys2Proof/Decode.lean ====
section
/-! DEFINITION. Decoding a command descriptor (30_encoding.md R50 to R57), the encoder written from the same tables,
the read port's map of select numbers (10_state.md R19) and the assembly of a line (30_encoding.md R58). -/

namespace Sys2Proof

/-- Why a descriptor is no command. -/
inductive DecodeError where
  /-- The `op` field is none of 0x01, 0x02, 0x03, 0x04 (30_encoding.md R54). -/
  | illegalOpcode
deriving DecidableEq, Repr

/-- `cmd[135:128]` (30_encoding.md R50). -/
def opField (d : Descriptor) : BitVec 8 := d.extractLsb' 128 8

/-- `cmd[127:64]` (30_encoding.md R50). -/
def addrField (d : Descriptor) : Word64 := d.extractLsb' 64 64

/-- `cmd[63:0]` (30_encoding.md R50). -/
def lenField (d : Descriptor) : Word64 := d.extractLsb' 0 64

/-- The decoder, total on 136-bit values (30_encoding.md R52, R53, R56). -/
def decode (d : Descriptor) : Except DecodeError Instr :=
  if opField d = 0x01#8 then .ok (.f64 (addrField d) (lenField d))
  else if opField d = 0x02#8 then .ok (.f128 (addrField d) (lenField d))
  else if opField d = 0x03#8 then .ok .sclr
  else if opField d = 0x04#8 then .ok (.supd (addrField d) (lenField d))
  else .error .illegalOpcode

/-- Laying the three fields out as one descriptor, `op` in the most significant position (30_encoding.md R50). -/
def descriptor (op : BitVec 8) (addr len : Word64) : Descriptor := op ++ (addr ++ len)

/-- The encoder (30_encoding.md R52); SCLR written without operands encodes `addr = 0`, `len = 0` (R58). -/
def encode : Instr → Descriptor
  | .f64 addr len => descriptor 0x01#8 addr len
  | .f128 addr len => descriptor 0x02#8 addr len
  | .sclr => descriptor 0x03#8 0#64 0#64
  | .supd addr len => descriptor 0x04#8 addr len

/-- The mask every row of the opcode table has (30_encoding.md R52). -/
def rowMask : Descriptor := 0xFF00000000000000000000000000000000#136

/-- The match value of a command's row (30_encoding.md R52). -/
def rowMatch : Instr → Descriptor
  | .f64 _ _ => 0x0100000000000000000000000000000000#136
  | .f128 _ _ => 0x0200000000000000000000000000000000#136
  | .sclr => 0x0300000000000000000000000000000000#136
  | .supd _ _ => 0x0400000000000000000000000000000000#136

/-- The descriptor whose low `nbits` bits are those of `w`, bit 0 the least significant, the bits above them zero. -/
def tableDescriptor (nbits w : Nat) : Descriptor := BitVec.ofNat 136 (w % 2 ^ nbits)

/-- The instruction the decoder reads from a word numbered as spec/opcode_table.json numbers it. -/
def decodeTableWord (nbits w : Nat) : Option Instr :=
  match decode (tableDescriptor nbits w) with
  | .ok i => some i
  | .error _ => none

/-- The number of a register on the read port (10_state.md R19). -/
def RegName.select : RegName → Nat
  | .res64 => 0x00
  | .res128Lo => 0x01
  | .res128Hi => 0x02
  | .cfgN => 0x03
  | .cfgBs => 0x04
  | .stripeLo i => 0x100 + 2 * i
  | .stripeHi i => 0x100 + 2 * i + 1

/-- The register a select number names in an instance of `n` stripes, none where it names no register
(10_state.md R19). -/
def selectedRegister (n : Nat) (rsel : Word64) : Option RegName :=
  let r := rsel.toNat
  if r = 0x00 then some .res64
  else if r = 0x01 then some .res128Lo
  else if r = 0x02 then some .res128Hi
  else if r = 0x03 then some .cfgN
  else if r = 0x04 then some .cfgBs
  else if 0x100 ≤ r ∧ (r - 0x100) / 2 < n then
    if (r - 0x100) % 2 = 0 then some (.stripeLo ((r - 0x100) / 2)) else some (.stripeHi ((r - 0x100) / 2))
  else none

/-- The command an assembler line stands for, none for a register read or an operand of 2^64 or more
(30_encoding.md R58). -/
def AsmLine.instr? : AsmLine → Option Instr
  | .f64 addr len => if addr < 2 ^ 64 ∧ len < 2 ^ 64 then some (.f64 (BitVec.ofNat 64 addr) (BitVec.ofNat 64 len)) else none
  | .f128 addr len => if addr < 2 ^ 64 ∧ len < 2 ^ 64 then some (.f128 (BitVec.ofNat 64 addr) (BitVec.ofNat 64 len)) else none
  | .sclr => some .sclr
  | .supd addr len => if addr < 2 ^ 64 ∧ len < 2 ^ 64 then some (.supd (BitVec.ofNat 64 addr) (BitVec.ofNat 64 len)) else none
  | .rd _ => none

/-- The host action an assembler line stands for: a descriptor, or for `RD` a read with the register's select number
(30_encoding.md R58: a read has no descriptor). -/
def AsmLine.assemble (line : AsmLine) : Option HostAction :=
  match line with
  | .rd r => if r.select < 2 ^ 64 then some (.read (BitVec.ofNat 64 r.select)) else none
  | .f64 addr len => (AsmLine.f64 addr len).instr?.map fun i => .command (encode i)
  | .f128 addr len => (AsmLine.f128 addr len).instr?.map fun i => .command (encode i)
  | .sclr => AsmLine.sclr.instr?.map fun i => .command (encode i)
  | .supd addr len => (AsmLine.supd addr len).instr?.map fun i => .command (encode i)

end Sys2Proof
end

