-- ==== Sys2Proof/Machine/State.lean ====
section
/-! DEFINITION. The engine's architectural state (10_state.md R11, R25), the buffer memory and the host agent beside
it (10_state.md R10, R20), the state after reset, and the reasons a step can stop (60_exceptions.md R132). -/

namespace Sys2Proof.Machine

/-- A result or stripe register: its 64 bits and whether they are specified (10_state.md R24). While `specified` is
false the stored bits are no value: every read goes through `Reg.read?`, which gives none. -/
structure Reg where
  value : Word64
  specified : Bool
deriving DecidableEq, Repr

/-- A register after reset (10_state.md R25). The stored zero is DESIGN CHOICE, log entry 1 (no read sees it). -/
def Reg.unspecified : Reg := ⟨0#64, false⟩

/-- A register a command has written (10_state.md R24). -/
def Reg.holding (v : Word64) : Reg := ⟨v, true⟩

/-- One stripe accumulator `S[i]`: two 64-bit registers (10_state.md R14). -/
structure Stripe where
  hi : Reg
  lo : Reg
deriving DecidableEq, Repr

/-- A stripe accumulator after reset (10_state.md R25). -/
def Stripe.unspecified : Stripe := ⟨Reg.unspecified, Reg.unspecified⟩

/-- A stripe accumulator that holds a Checksum128. -/
def Stripe.holding (p : Pair 64) : Stripe := ⟨Reg.holding p.hi, Reg.holding p.lo⟩

/-- Why the machine stops with a fault (60_exceptions.md R132, R142). -/
inductive Fault where
  /-- Raised by the read port and by SUPD: a read of a register that has had no value since reset. The spec's own stop:
  10_state.md R19 and R24, 44_striped128.md R112, 60_exceptions.md R132 and R142. Safe: hardware would give some value,
  the model gives none. -/
  | unspecifiedRegisterRead
deriving DecidableEq, Repr

/-- Why a host action is refused; on a refusal nothing changes (60_exceptions.md R132). -/
inductive Refusal where
  /-- An instruction that has no meaning in this model yet. No arm of `exec` raises it. Safe. -/
  | notModelled (mnemonic : String)
  /-- Raised where a descriptor is decoded: `op` is not 0x01 to 0x04 (30_encoding.md R54). Safe. -/
  | illegalOpcode
  /-- Raised by F64, F128, SUPD: `addr + len > 2^64` (20_memory.md R33). Safe. -/
  | bufferWraps
  /-- Raised by F64, F128, SUPD: a byte of the buffer is not ordinary readable memory (20_memory.md R36, R38). Safe. -/
  | bufferNotReadable
  /-- Raised by the read port: the select number names no register of this instance (10_state.md R19). Safe. -/
  | badRegisterSelect
  /-- Raised in the stepped view only (Machine/Stepwise.lean): a host write to the footprint of the command in flight
  (20_memory.md R40). Safe. -/
  | bufferRace
deriving DecidableEq, Repr

/-- The machine: the engine's registers (10_state.md R11), the buffer memory the host owns (20_memory.md R30), and the
host's own actions and readings (70_reset_and_hazards.md R164). -/
structure State where
  /-- RES64, Checksum64 packed `{hi, lo}` (10_state.md R12). -/
  res64 : Reg
  /-- RES128_HI (10_state.md R13). -/
  res128Hi : Reg
  /-- RES128_LO (10_state.md R13). -/
  res128Lo : Reg
  /-- The StripeSet, `S[0]` first (10_state.md R14). -/
  stripes : List Stripe
  /-- CFG_N, hardwired (10_state.md R17). -/
  cfgN : Word64
  /-- CFG_BS, hardwired (10_state.md R17). -/
  cfgBs : Word64
  /-- The launch memory and what the host wrote since: an address that is not listed has no readable byte
  (20_memory.md R38, R44; log entry 2). -/
  mem : List Host.Cell
  /-- Address windows that are not ordinary readable memory: device registers, unreadable addresses
  (20_memory.md R36, R38, R44; log entry 3). -/
  withheld : List Region
  /-- The host's actions not yet taken, the next one first (70_reset_and_hazards.md R164; log entry 5). -/
  pending : List HostAction
  /-- The values the host's reads returned, the first one first (70_reset_and_hazards.md R164). -/
  output : List Word64
deriving DecidableEq, Repr

/-- An engine with these parameters right after reset (10_state.md R25), no memory admitted and no host action waiting. -/
def State.ofParams (p : Params) : State where
  res64 := Reg.unspecified
  res128Hi := Reg.unspecified
  res128Lo := Reg.unspecified
  stripes := List.replicate p.n.toNat Stripe.unspecified
  cfgN := p.n
  cfgBs := p.blockSize
  mem := []
  withheld := []
  pending := []
  output := []

/-- The machine right after reset (10_state.md R25, 70_reset_and_hazards.md R150). -/
def State.reset : State := State.ofParams Config.params

end Sys2Proof.Machine
end

