-- ==== Sys2Proof/Machine/Ops.lean ====
section
/-! DEFINITION. The named operations over memory and registers: the memory's canonical form, the engine's byte reads,
the accumulate step (40_word_accumulator.md R70 to R72), the stripe array, the read port and the reset event. The spec
describes no exception entry and no return from one (60_exceptions.md R136, R137), so there is none here. -/

namespace Sys2Proof.Machine

/-- Go on with the value of an outcome, or stop as it stopped. -/
def andThen {α β : Type} (o : Host.Outcome α Fault Refusal) (f : α → Host.Outcome β Fault Refusal) :
    Host.Outcome β Fault Refusal :=
  match o with
  | .next a => f a
  | .fault r => .fault r
  | .refused r => .refused r

/-- A value, or the stop that stands for its absence. -/
def orStop {α : Type} (v : Option α) (stop : Host.Outcome α Fault Refusal) : Host.Outcome α Fault Refusal :=
  match v with
  | some a => .next a
  | none => stop

/-! Memory: a list of cells in one canonical form. -/

/-- The byte a list of cells holds at an address; an unlisted address holds none (log entry 2). -/
def Memory.lookup : List Host.Cell → Nat → Option Byte
  | [], _ => none
  | c :: cs, a => if c.1 = a then some c.2 else Memory.lookup cs a

/-- Write one byte, keeping the addresses strictly rising. -/
def Memory.write : List Host.Cell → Nat → Byte → List Host.Cell
  | [], a, b => [(a, b)]
  | c :: cs, a, b =>
    if a < c.1 then (a, b) :: c :: cs
    else if a = c.1 then (a, b) :: cs
    else c :: Memory.write cs a b

/-- The cells' addresses rise strictly from `least` on and lie below 2^64. -/
def Memory.risesFrom : Nat → List Host.Cell → Bool
  | _, [] => true
  | least, c :: cs => decide (least ≤ c.1) && decide (c.1 < 2 ^ 64) && Memory.risesFrom (c.1 + 1) cs

/-- The canonical form of memory. -/
def Memory.wf (m : List Host.Cell) : Bool := Memory.risesFrom 0 m

/-- The address lies in the region. -/
def inRegion (a : Nat) (r : Region) : Bool :=
  decide (r.base.toNat ≤ a) && decide (a < r.base.toNat + r.size)

/-- The platform keeps this address from the engine: it is no ordinary readable memory (20_memory.md R36, R38). -/
def State.withholds (s : State) (a : Nat) : Bool := s.withheld.any (inRegion a)

/-- The model's read of one byte of buffer memory; none where the address is not admitted (20_memory.md R38, R44). -/
def State.readByte (s : State) (a : Nat) : Option Byte :=
  if s.withholds a then none else Memory.lookup s.mem a

/-- The `n` bytes from address `a` on, ascending; none where one of them is not admitted. Reading has no side effect
(20_memory.md R35, R36). -/
def State.readBytes (s : State) (a : Nat) : Nat → Option (List Byte)
  | 0 => some []
  | n + 1 =>
    match s.readByte a with
    | none => none
    | some b => (State.readBytes s (a + 1) n).map (b :: ·)

/-- The host writes one byte of its memory (70_reset_and_hazards.md R164). A withheld address is no byte of buffer
memory, and nothing the engine can read changes there (log entry 6). -/
def State.hostWrite (s : State) (a : Nat) (b : Byte) : State :=
  if s.withholds a then s else { s with mem := Memory.write s.mem a b }

/-! The word accumulator. -/

/-- `acc_W` (40_word_accumulator.md R70, R71): `lo` first, then `hi` with the new `lo`; both modulo 2^W, the carries
discarded (R75). -/
def acc {W : Nat} (a : Pair W) (word : BitVec W) : Pair W :=
  let lo := a.lo + word
  ⟨a.hi + lo, lo⟩

/-- `foldfrom_W` (40_word_accumulator.md R72): the words in list order, index 0 first. -/
def foldFrom {W : Nat} (a : Pair W) (ws : List (BitVec W)) : Pair W := ws.foldl acc a

/-- `fold_W` (40_word_accumulator.md R72). -/
def fold {W : Nat} (ws : List (BitVec W)) : Pair W := foldFrom (Pair.zero W) ws

/-- A Checksum64 in its packed form `{hi, lo}` (10_state.md R12). -/
def pack (p : Pair 32) : Word64 := p.hi ++ p.lo

/-! Registers. -/

/-- The value of a register, none while it is unspecified (10_state.md R24). -/
def Reg.read? (r : Reg) : Option Word64 := if r.specified then some r.value else none

/-- The value of a stripe accumulator, none while one of its registers is unspecified (10_state.md R24). -/
def Stripe.read? (st : Stripe) : Option (Pair 64) :=
  match st.hi.read?, st.lo.read? with
  | some hi, some lo => some ⟨hi, lo⟩
  | _, _ => none

/-- N, the stripe count of this instance: the number CFG_N holds (10_state.md R17). -/
def State.stripeCount (s : State) : Nat := s.cfgN.toNat

/-- `RES64 <- v`. -/
def State.setRes64 (s : State) (v : Word64) : State := { s with res64 := Reg.holding v }

/-- `RES128_HI <- hi`, `RES128_LO <- lo`, both at once (10_state.md R13). -/
def State.setRes128 (s : State) (p : Pair 64) : State :=
  { s with res128Hi := Reg.holding p.hi, res128Lo := Reg.holding p.lo }

/-- Replace the StripeSet. -/
def State.setStripes (s : State) (S : List Stripe) : State := { s with stripes := S }

/-- Every `S[i] <- (0, 0)` for i in 0..N-1 (44_striped128.md R110). -/
def State.clearStripes (s : State) : State :=
  s.setStripes (List.replicate s.stripeCount (Stripe.holding (Pair.zero 64)))

/-- Accumulate one word into stripe `i`: read it, which faults while it is unspecified (10_state.md R24), and write it
back (44_striped128.md R112). -/
def accumulateStripe (S : List Stripe) (i : Nat) (x : Word64) : Host.Outcome (List Stripe) Fault Refusal :=
  andThen (orStop (S.getD i Stripe.unspecified).read? (.fault .unspecifiedRegisterRead)) fun p =>
    .next (S.set i (Stripe.holding (acc p x)))

/-- Deal words round-robin, the first at position `w`, word `w` to stripe `w mod n` (44_striped128.md R112, R115). -/
def dealWords (n : Nat) : Nat → List Word64 → List Stripe → Host.Outcome (List Stripe) Fault Refusal
  | _, [], S => .next S
  | w, x :: xs, S => andThen (accumulateStripe S (w % n) x) (dealWords n (w + 1) xs)

/-- The register a name stands for, none where it holds no value (10_state.md R19, R24). -/
def State.readRegister? (s : State) : RegName → Option Word64
  | .res64 => s.res64.read?
  | .res128Lo => s.res128Lo.read?
  | .res128Hi => s.res128Hi.read?
  | .cfgN => some s.cfgN
  | .cfgBs => some s.cfgBs
  | .stripeLo i => (s.stripes.getD i Stripe.unspecified).lo.read?
  | .stripeHi i => (s.stripes.getD i Stripe.unspecified).hi.read?

/-- The host's register read port (10_state.md R19): no side effect on any state. -/
def State.readPort (s : State) (rsel : Word64) : Host.Outcome Word64 Fault Refusal :=
  andThen (orStop (selectedRegister s.stripeCount rsel) (.refused .badRegisterSelect)) fun r =>
    orStop (s.readRegister? r) (.fault .unspecifiedRegisterRead)

/-- `RD`: the value the read port returns goes to the host's output (70_reset_and_hazards.md R164). -/
def State.hostRead (s : State) (rsel : Word64) : Host.Outcome State Fault Refusal :=
  andThen (s.readPort rsel) fun v => .next { s with output := s.output ++ [v] }

/-- The reset event (10_state.md R25, 70_reset_and_hazards.md R150): every result and stripe register unspecified, the
configuration registers hardwired, memory untouched. What waits at the host stays the host's (log entry 7). -/
def State.resetEngine (s : State) : State :=
  { s with
    res64 := Reg.unspecified
    res128Hi := Reg.unspecified
    res128Lo := Reg.unspecified
    stripes := List.replicate s.stripeCount Stripe.unspecified }

/-- Building an instance: refused where the parameters break a constraint (00_scope.md R5). -/
def State.instantiate (p : Params) : Option State := if p.legal then some (State.ofParams p) else none

end Sys2Proof.Machine
end

