-- ==== Sys2Proof/Machine/Operands.lean ====
section
/-! DEFINITION. The one operand form of the commands: a buffer `(addr, len)`, its checks (30_encoding.md R57) and its
words (41_tail_padder.md R80 to R84). `B` is the number of bytes per word, `W = 8 * B` the word width. -/

namespace Sys2Proof.Machine

/-- `full_B(len)`: the number of full words (41_tail_padder.md R80). -/
def fullWords (B len : Nat) : Nat := len / B

/-- `tail_B(len)`: the number of trailing bytes (41_tail_padder.md R80). -/
def tailBytes (B len : Nat) : Nat := len % B

/-- `nwords_B(len)`: the number of words, the tail word included (41_tail_padder.md R80). -/
def nwords (B len : Nat) : Nat := fullWords B len + if tailBytes B len > 0 then 1 else 0

/-- The number of bytes of word `k` that exist: `B` for a full word, the tail's for the tail word
(41_tail_padder.md R82). -/
def wordBytes (B len k : Nat) : Nat := min B (len - B * k)

/-- `MemRead`: the little-endian value of some bytes, the lowest address least significant (00_scope.md R7,
20_memory.md R32). -/
def littleEndian : List Byte → Nat
  | [] => 0
  | b :: bs => b.toNat + 256 * littleEndian bs

/-- `word_B` over the bytes of a buffer: the bytes of word `k`, zero-extended to `W` bits in the high-order positions
(41_tail_padder.md R82, R83). -/
def wordAt (W : Nat) (bytes : List Byte) (k : Nat) : BitVec W :=
  BitVec.ofNat W (littleEndian ((bytes.drop (W / 8 * k)).take (wordBytes (W / 8) bytes.length k)))

/-- `words_B` over the bytes of a buffer, in ascending k (41_tail_padder.md R84). -/
def wordsOf (W : Nat) (bytes : List Byte) : List (BitVec W) :=
  (List.range (nwords (W / 8) bytes.length)).map (wordAt W bytes)

/-- A buffer wraps the address space (20_memory.md R33). -/
def bufferWraps (addr len : Word64) : Bool := decide (addr.toNat + len.toNat > 2 ^ 64)

/-- The bytes of a command's buffer, after the checks in the order of 30_encoding.md R57: first the address range, then
the readability of the whole footprint. Only the bytes `addr, …, addr + len - 1` are looked at (20_memory.md R35). -/
def State.buffer (s : State) (addr len : Word64) : Host.Outcome (List Byte) Fault Refusal :=
  if bufferWraps addr len then .refused .bufferWraps
  else orStop (s.readBytes addr.toNat len.toNat) (.refused .bufferNotReadable)

/-- `word_B(addr, len, k)` read from memory alone (41_tail_padder.md R82), as one word step of the stepped view reads it
(42_fletcher64.md R94). -/
def State.readWord (s : State) (W : Nat) (addr len : Word64) (k : Nat) : Host.Outcome (BitVec W) Fault Refusal :=
  andThen (orStop (s.readBytes (addr.toNat + W / 8 * k) (wordBytes (W / 8) len.toNat k)) (.refused .bufferNotReadable))
    fun bs => .next (BitVec.ofNat W (littleEndian bs))

end Sys2Proof.Machine
end

