-- ==== Sys2Proof/Machine/Fletcher128.lean ====
section
/-! DEFINITION. Command F128, the whole-buffer Fletcher-128 engine (43_fletcher128.md). -/

namespace Sys2Proof.Machine

/-- F128 (43_fletcher128.md R100): `RES128_HI` and `RES128_LO` together take the 64-bit fold of the buffer's words, from
(0, 0); nothing else changes. -/
def execF128 (addr len : Word64) (s : State) : Host.Outcome State Fault Refusal :=
  andThen (s.buffer addr len) fun bytes => .next (s.setRes128 (fold (wordsOf 64 bytes)))

end Sys2Proof.Machine
end

