-- ==== Sys2Proof/Machine/Fletcher64.lean ====
section
/-! DEFINITION. Command F64, the whole-buffer Fletcher-64 engine (42_fletcher64.md). -/

namespace Sys2Proof.Machine

/-- F64 (42_fletcher64.md R90): `RES64 <- {hi, lo}` of the 32-bit fold of the buffer's words, from (0, 0); nothing else
changes. Overflow of a sum is no event (60_exceptions.md R131). -/
def execF64 (addr len : Word64) (s : State) : Host.Outcome State Fault Refusal :=
  andThen (s.buffer addr len) fun bytes => .next (s.setRes64 (pack (fold (wordsOf 32 bytes))))

end Sys2Proof.Machine
end

