-- ==== Sys2Proof/Machine/Striped.lean ====
section
/-! DEFINITION. Commands SCLR and SUPD, the striped Fletcher-128 accumulator array (44_striped128.md). -/

namespace Sys2Proof.Machine

/-- SCLR (44_striped128.md R110): every `S[i]` becomes (0, 0) and specified; cannot be refused. -/
def execSclr (s : State) : Host.Outcome State Fault Refusal := .next s.clearStripes

/-- SUPD (44_striped128.md R112): word `w` of the chunk is accumulated into stripe `w mod N`, `w` from 0 in every SUPD.
A stripe that receives no word is neither read nor written (R116); a stripe that receives one while unspecified is the
fault of 10_state.md R24. All or nothing: a stop changes nothing (60_exceptions.md R133). -/
def execSupd (addr len : Word64) (s : State) : Host.Outcome State Fault Refusal :=
  andThen (s.buffer addr len) fun bytes =>
    andThen (dealWords s.stripeCount 0 (wordsOf 64 bytes) s.stripes) fun S => .next (s.setStripes S)

/-- `count_i`: how many of `m` words stripe `i` of `n` receives (44_striped128.md R115). -/
def laneCount (n i m : Nat) : Nat := (m + n - 1 - i) / n

/-- `lane_i`: the words stripe `i` of `n` receives, ascending (44_striped128.md R117). -/
def lane (n i : Nat) (ws : List Word64) : List Word64 :=
  (List.range (laneCount n i ws.length)).map fun j => ws.getD (i + n * j) 0#64

end Sys2Proof.Machine
end

