-- ==== Sys2Proof/Machine/Dispatch.lean ====
section
/-! DEFINITION. The meaning of each command, one arm per row of spec/opcode_table.json (30_encoding.md R52). -/

namespace Sys2Proof.Machine

def exec (i : Instr) (s : State) : Host.Outcome State Fault Refusal :=
  match i with
  | .f64 addr len => Sys2Proof.Machine.execF64 addr len s
  | .f128 addr len => Sys2Proof.Machine.execF128 addr len s
  | .sclr => Sys2Proof.Machine.execSclr s
  | .supd addr len => Sys2Proof.Machine.execSupd addr len s

end Sys2Proof.Machine
end

