-- ==== Sys2Proof/Machine/HostPort.lean ====
section
/-! DEFINITION. What one host action does (70_reset_and_hazards.md R164, R165, 60_exceptions.md R142). -/

namespace Sys2Proof.Machine

/-- The command port: a descriptor is decoded, then executed; one that is no command is refused (30_encoding.md R54). -/
def issue (d : Descriptor) (s : State) : Host.Outcome State Fault Refusal :=
  match decode d with
  | .ok i => exec i s
  | .error .illegalOpcode => .refused .illegalOpcode

/-- One host action on the state (70_reset_and_hazards.md R165). -/
def perform (a : HostAction) (s : State) : Host.Outcome State Fault Refusal :=
  match a with
  | .command d => issue d s
  | .read rsel => s.hostRead rsel
  | .write addr b => .next (s.hostWrite addr.toNat b)
  | .reset => .next s.resetEngine

/-- Take the host's next action off its list and perform it; with none left the run is over (70_reset_and_hazards.md
R164) and the engine is idle (R150). -/
def takeAction (s : State) : Host.Outcome State Fault Refusal :=
  match s.pending with
  | [] => .next s
  | a :: rest => perform a { s with pending := rest }

/-- Put a command descriptor first in the host's list. -/
def State.withDescriptor (s : State) (d : Descriptor) : State := { s with pending := .command d :: s.pending }

end Sys2Proof.Machine
end

