-- ==== Sys2Proof/Machine/Step.lean ====
section
/-! DEFINITION. One step of the machine: one host action (60_exceptions.md R142). -/

namespace Sys2Proof.Machine

/-- One step: the host's next action (10_state.md R10: a command is one atomic transition). -/
def step (s : State) : Host.Outcome State Fault Refusal := takeAction s

/-- `s` with the instruction whose bits are `w` placed where the next step takes it: first in the host's list of
actions (a command arrives whole from the host, 10_state.md R21; log entry 5). -/
def State.withFetchWord (s : State) (nbits w : Nat) : State := s.withDescriptor (tableDescriptor nbits w)

end Sys2Proof.Machine
end

