-- ==== Sys2Proof/Machine/Assembler.lean ====
section
/-! DEFINITION. Reading a line of the spec's assembler notation (30_encoding.md R58): a mnemonic and its operands, one
command per line, `;` starting a comment, numbers decimal or `0x` hexadecimal, `RD` with a register's name. -/

namespace Sys2Proof.Machine

/-- A line without its comment. -/
def stripComment : List Char → List Char
  | [] => []
  | c :: cs => if c = ';' then [] else c :: stripComment cs

/-- The word read so far, as a token if it is not empty. -/
def flushToken (cur : List Char) : List (List Char) := if cur.isEmpty then [] else [cur]

/-- The tokens of a line: runs of characters between blanks, and each comma. -/
def tokensFrom (cur : List Char) : List Char → List (List Char)
  | [] => flushToken cur
  | c :: cs =>
    if c = ' ' ∨ c = '\t' then flushToken cur ++ tokensFrom [] cs
    else if c = ',' then flushToken cur ++ [','] :: tokensFrom [] cs
    else tokensFrom (cur ++ [c]) cs

/-- The value of a digit in a base of at most 16. -/
def digitIn (base : Nat) (c : Char) : Option Nat :=
  let n := c.toNat
  let v :=
    if 48 ≤ n ∧ n ≤ 57 then n - 48
    else if 65 ≤ n ∧ n ≤ 70 then n - 55
    else if 97 ≤ n ∧ n ≤ 102 then n - 87
    else base
  if v < base then some v else none

/-- The number a run of digits writes, most significant first, after `v` has been read. -/
def digitsFrom (base v : Nat) : List Char → Option Nat
  | [] => some v
  | c :: cs =>
    match digitIn base c with
    | some d => digitsFrom base (v * base + d) cs
    | none => none

/-- An unsigned number, `0x` hexadecimal or decimal, at least one digit (30_encoding.md R58). -/
def numeral : List Char → Option Nat
  | [] => none
  | '0' :: 'x' :: [] => none
  | '0' :: 'x' :: c :: cs => digitsFrom 16 0 (c :: cs)
  | c :: cs => digitsFrom 10 0 (c :: cs)

/-- The characters before a closing bracket and those after it. -/
def splitBracket (seen : List Char) : List Char → Option (List Char × List Char)
  | [] => none
  | c :: cs => if c = ']' then some (seen, cs) else splitBracket (seen ++ [c]) cs

/-- A register by its name, as `RES64` or `S[1].hi` (30_encoding.md R58). -/
def registerName : List Char → Option RegName
  | 'S' :: '[' :: cs =>
    match splitBracket [] cs with
    | some (c :: ds, ['.', 'h', 'i']) => (digitsFrom 10 0 (c :: ds)).map .stripeHi
    | some (c :: ds, ['.', 'l', 'o']) => (digitsFrom 10 0 (c :: ds)).map .stripeLo
    | _ => none
  | cs =>
    if cs = ['R', 'E', 'S', '6', '4'] then some .res64
    else if cs = ['R', 'E', 'S', '1', '2', '8', '_', 'L', 'O'] then some .res128Lo
    else if cs = ['R', 'E', 'S', '1', '2', '8', '_', 'H', 'I'] then some .res128Hi
    else if cs = ['C', 'F', 'G', '_', 'N'] then some .cfgN
    else if cs = ['C', 'F', 'G', '_', 'B', 'S'] then some .cfgBs
    else none

/-- A command of format AL by its mnemonic. -/
def bufferLine (mnemonic : List Char) (addr len : Nat) : Option AsmLine :=
  if mnemonic = ['F', '6', '4'] then some (.f64 addr len)
  else if mnemonic = ['F', '1', '2', '8'] then some (.f128 addr len)
  else if mnemonic = ['S', 'U', 'P', 'D'] then some (.supd addr len)
  else none

/-- One line of the notation, none where it is not one (30_encoding.md R58). -/
def parseLine (line : List Char) : Option AsmLine :=
  match tokensFrom [] (stripComment line) with
  | [m] => if m = ['S', 'C', 'L', 'R'] then some .sclr else none
  | [m, r] => if m = ['R', 'D'] then (registerName r).map .rd else none
  | [m, a, comma, l] =>
    match numeral a, numeral l with
    | some addr, some len => if comma = [','] then bufferLine m addr len else none
    | _, _ => none
  | _ => none

end Sys2Proof.Machine
end

