-- ==== Sys2Proof/Machine/HostProcedures.lean ====
section
/-! DEFINITION. The host's procedures of 70_reset_and_hazards.md R152 and R153, as the lists of actions the host issues.
They are host software, not commands; `State.pending` takes such a list. N has no maximum (00_scope.md R5), so a select
number, a chunk length or a byte's address can reach 2^64, and the spec does not say what the host then does: each is
truncated to 64 bits (DESIGN CHOICE, log entry 11, unsafe). -/

namespace Sys2Proof.Machine

/-- Reading a register by its name (10_state.md R19). A select number of 2^64 or more is truncated to 64 bits and may
then name another register (DESIGN CHOICE, log entry 11). -/
def readOf (r : RegName) : HostAction := .read (BitVec.ofNat 64 r.select)

/-- Fletcher-64 of a file held whole in one buffer (70_reset_and_hazards.md R152). -/
def wholeFile64 (addr len : Word64) : List HostAction := [.command (encode (.f64 addr len)), readOf .res64]

/-- Fletcher-128 of a file held whole in one buffer (70_reset_and_hazards.md R152). -/
def wholeFile128 (addr len : Word64) : List HostAction :=
  [.command (encode (.f128 addr len)), readOf .res128Hi, readOf .res128Lo]

/-- The host puts some bytes into its memory from an address on. An address of 2^64 or more is truncated to 64 bits
(DESIGN CHOICE, log entry 11). -/
def placeBytes : Nat → List Byte → List HostAction
  | _, [] => []
  | a, b :: bs => .write (BitVec.ofNat 64 a) b :: placeBytes (a + 1) bs

/-- The chunks of a file, `size` bytes each but for the last; at most `fuel` of them (70_reset_and_hazards.md R153: the
loop runs while bytes remain, and a file has no more chunks than bytes). -/
def chunksOf (size : Nat) : Nat → List Byte → List (List Byte)
  | 0, _ => []
  | _ + 1, [] => []
  | fuel + 1, b :: bs => (b :: bs).take size :: chunksOf size fuel ((b :: bs).drop size)

/-- Striped mode over one file through a block buffer of N * BLOCK_SIZE bytes at `buf` (70_reset_and_hazards.md R153).
A chunk length of 2^64 or more is truncated to 64 bits (DESIGN CHOICE, log entry 11). -/
def stripedFile (n blockSize : Nat) (buf : Word64) (file : List Byte) : List HostAction :=
  .command (encode .sclr) ::
    ((chunksOf (n * blockSize) file.length file).flatMap fun c =>
      placeBytes buf.toNat c ++ [.command (encode (.supd buf (BitVec.ofNat 64 c.length)))]) ++
    (List.range n).flatMap fun i => [readOf (.stripeHi i), readOf (.stripeLo i)]

end Sys2Proof.Machine
end

