-- ==== Sys2Proof/Machine/Stepwise.lean ====
section
/-! DEFINITION. The stepped view of a command (42_fletcher64.md R94, 43_fletcher128.md R103, 10_state.md R18): one word
per step, and what may come between two word steps: a host write (20_memory.md R40, the refusal `BufferRace`) and a
reset (70_reset_and_hazards.md R150). The atomic `exec` is the machine; this view refines it and is not observable. -/

namespace Sys2Proof.Machine

/-- The command in flight with its word index `w` and, for F64 and F128, its working accumulator `WA` (10_state.md R18);
the accumulators of SUPD are the `S[i]` themselves. -/
inductive Flight where
  | f64 (addr len : Word64) (w : Nat) (wa : Pair 32)
  | f128 (addr len : Word64) (w : Nat) (wa : Pair 64)
  | supd (addr len : Word64) (w : Nat)
deriving DecidableEq, Repr

/-- The machine with a command in flight, or none (10_state.md R25). -/
structure Stepped where
  arch : State
  flight : Option Flight
deriving DecidableEq, Repr

/-- The address lies in the footprint of a buffer (20_memory.md R35). -/
def inFootprint (addr len : Word64) (a : Nat) : Bool :=
  decide (addr.toNat ≤ a) && decide (a < addr.toNat + len.toNat)

/-- The address lies in the footprint of the command in flight. -/
def Flight.reads : Flight → Nat → Bool
  | .f64 addr len _ _, a => inFootprint addr len a
  | .f128 addr len _ _, a => inFootprint addr len a
  | .supd addr len _, a => inFootprint addr len a

/-- An idle engine accepts a command: the checks of 30_encoding.md R57, then the command is in flight with `w = 0` and
`WA = (0, 0)`; SCLR has no word to read and is complete at once. -/
def beginCommand (i : Instr) (s : State) : Host.Outcome Stepped Fault Refusal :=
  match i with
  | .f64 addr len => andThen (s.buffer addr len) fun _ => .next ⟨s, some (.f64 addr len 0 (Pair.zero 32))⟩
  | .f128 addr len => andThen (s.buffer addr len) fun _ => .next ⟨s, some (.f128 addr len 0 (Pair.zero 64))⟩
  | .sclr => .next ⟨s.clearStripes, none⟩
  | .supd addr len => andThen (s.buffer addr len) fun _ => .next ⟨s, some (.supd addr len 0)⟩

/-- One step of the engine: the next word is accumulated, or, when `w` has reached the word count, the result registers
are written and the command is complete (42_fletcher64.md R94, 43_fletcher128.md R103). -/
def wordStep (t : Stepped) : Host.Outcome Stepped Fault Refusal :=
  match t.flight with
  | none => .next t
  | some (.f64 addr len w wa) =>
    if w < nwords 4 len.toNat then
      andThen (t.arch.readWord 32 addr len w) fun x => .next ⟨t.arch, some (.f64 addr len (w + 1) (acc wa x))⟩
    else .next ⟨t.arch.setRes64 (pack wa), none⟩
  | some (.f128 addr len w wa) =>
    if w < nwords 8 len.toNat then
      andThen (t.arch.readWord 64 addr len w) fun x => .next ⟨t.arch, some (.f128 addr len (w + 1) (acc wa x))⟩
    else .next ⟨t.arch.setRes128 wa, none⟩
  | some (.supd addr len w) =>
    if w < nwords 8 len.toNat then
      andThen (t.arch.readWord 64 addr len w) fun x =>
        andThen (accumulateStripe t.arch.stripes (w % t.arch.stripeCount) x) fun S =>
          .next ⟨t.arch.setStripes S, some (.supd addr len (w + 1))⟩
    else .next ⟨t.arch, none⟩

/-- `k` word steps, stopping at the first fault or refusal. -/
def wordSteps : Nat → Stepped → Host.Outcome Stepped Fault Refusal
  | 0, t => .next t
  | k + 1, t => andThen (wordStep t) (wordSteps k)

/-- The host writes a byte between two word steps: a race where it lies in the footprint of the command in flight
(20_memory.md R40, 70_reset_and_hazards.md R159). -/
def Stepped.hostWrite (t : Stepped) (a : Nat) (b : Byte) : Host.Outcome Stepped Fault Refusal :=
  match t.flight with
  | none => .next ⟨t.arch.hostWrite a b, none⟩
  | some f => if f.reads a then .refused .bufferRace else .next ⟨t.arch.hostWrite a b, some f⟩

/-- A reset abandons the command in flight; every result and stripe register is unspecified (70_reset_and_hazards.md
R150). -/
def Stepped.resetDuring (t : Stepped) : Stepped := ⟨t.arch.resetEngine, none⟩

end Sys2Proof.Machine
end

