-- ==== Sys2Proof/Safety.lean ====
section
/-! DEFINITION. The terms claims are made in: legal states, what memory holds, safe runs, the host's chunk duty
(70_reset_and_hazards.md R156), and states no host can tell apart. -/

namespace Sys2Proof.Machine

/-- The states of an engine this spec describes: memory in canonical form, legal parameters (00_scope.md R5), N stripe
accumulators (10_state.md R14), and the two registers of each Checksum128 specified together (10_state.md R13, R24). -/
structure State.Legal (s : State) : Prop where
  memory : Memory.wf s.mem = true
  parameters : Params.legal ⟨s.cfgN, s.cfgBs⟩ = true
  stripeCount : s.stripes.length = s.stripeCount
  res128 : s.res128Hi.specified = s.res128Lo.specified
  stripePairs : ∀ st ∈ s.stripes, st.hi.specified = st.lo.specified

/-- The engine can read these bytes, the first at address `a` and the others above it (20_memory.md R31). -/
def State.Holds (s : State) (a : Nat) (bytes : List Byte) : Prop :=
  ∀ i (h : i < bytes.length), s.readByte (a + i) = some bytes[i]

/-- A command's buffer does not wrap and memory holds these bytes in it (20_memory.md R31, R33, R38). -/
structure State.Buffer (s : State) (addr len : Word64) (bytes : List Byte) : Prop where
  fits : addr.toNat + len.toNat ≤ 2 ^ 64
  length : len.toNat = bytes.length
  holds : s.Holds addr.toNat bytes

/-- The first `k` stripes hold values (10_state.md R24). -/
def State.StripesSpecified (s : State) (k : Nat) : Prop :=
  ∀ i (h : i < s.stripes.length), i < k → s.stripes[i].hi.specified = true ∧ s.stripes[i].lo.specified = true

/-- The same engine registers (10_state.md R11). -/
structure State.SameRegisters (s t : State) : Prop where
  res64 : t.res64 = s.res64
  res128Hi : t.res128Hi = s.res128Hi
  res128Lo : t.res128Lo = s.res128Lo
  stripes : t.stripes = s.stripes
  cfgN : t.cfgN = s.cfgN
  cfgBs : t.cfgBs = s.cfgBs

/-- Two registers no read can tell apart: both unspecified, or both with one value (10_state.md R24). -/
def Reg.Indistinct (r r' : Reg) : Prop := r.read? = r'.read?

/-- Two stripe accumulators no read can tell apart. -/
def Stripe.Indistinct (st st' : Stripe) : Prop := st.hi.Indistinct st'.hi ∧ st.lo.Indistinct st'.lo

/-- Two states that differ only in bits stored under the mark `unspecified`. -/
structure State.Indistinct (s t : State) : Prop where
  res64 : s.res64.Indistinct t.res64
  res128Hi : s.res128Hi.Indistinct t.res128Hi
  res128Lo : s.res128Lo.Indistinct t.res128Lo
  stripes : List.Forall₂ Stripe.Indistinct s.stripes t.stripes
  cfgN : s.cfgN = t.cfgN
  cfgBs : s.cfgBs = t.cfgBs
  mem : s.mem = t.mem
  withheld : s.withheld = t.withheld
  pending : s.pending = t.pending
  output : s.output = t.output

/-- Two outcomes of the same kind: related next states, the same fault, the same refusal. -/
def OutcomeRelated (R : State → State → Prop) (o o' : Host.Outcome State Fault Refusal) : Prop :=
  match o, o' with
  | .next s, .next t => R s t
  | .fault f, .fault g => f = g
  | .refused f, .refused g => f = g
  | _, _ => False

/-- A safe run: `k` steps with no refusal and no fault (70_reset_and_hazards.md R164: only such a run has an end state a
claim may use). -/
def SafeRun (k : Nat) (s t : State) : Prop := Host.Core.run Sys2Proof.core k s = .next t

/-- The host's chunk duty: every chunk but the last has a length that is a multiple of N * BLOCK_SIZE
(70_reset_and_hazards.md R156). -/
def ChunkDuty (size : Nat) (chunks : List (List Byte)) : Prop :=
  ∀ c ∈ chunks.dropLast, c.length % size = 0

/-- A file's chunks handed to SUPD one after another: before each command the host may put anything into memory, as long
as the command's buffer holds the chunk (44_striped128.md R120). -/
inductive ChunkRun : State → List (List Byte) → State → Prop where
  | done (s t : State) (same : s.SameRegisters t) : ChunkRun s [] t
  | chunk (s s₁ s₂ t : State) (addr len : Word64) (c : List Byte) (cs : List (List Byte))
      (same : s.SameRegisters s₁) (buffer : s₁.Buffer addr len c)
      (update : exec (.supd addr len) s₁ = .next s₂) (rest : ChunkRun s₂ cs t) : ChunkRun s (c :: cs) t

end Sys2Proof.Machine
end

