-- ==== Sys2Proof/Certificates/Slice0/Obligations.lean ====
section
/-! DEFINITION. The statements for the provers, from the spec's numbered rules. -/

open Sys2Proof Sys2Proof.Machine

/-! Encoding. -/

/-- 95_test_vectors.md V60 to V68: words written out from 30_encoding.md R50 and R52 decode to their commands. -/
def Obligations.SpecWordsDecode : Prop :=
  decode 0x0100000000000010000000000000000005#136 = .ok (.f64 0x1000#64 5#64) ∧
  decode 0x020000000000002000000000000000000D#136 = .ok (.f128 0x2000#64 13#64) ∧
  decode 0x0300000000000000000000000000000000#136 = .ok .sclr ∧
  decode 0x03DEADBEEF00000000FFFFFFFFFFFFFFFF#136 = .ok .sclr ∧
  decode 0x0400000000000030000000000000000025#136 = .ok (.supd 0x3000#64 37#64) ∧
  decode 0x0000000000000000000000000000000000#136 = .error .illegalOpcode ∧
  decode 0x0500000000000010000000000000000005#136 = .error .illegalOpcode ∧
  decode 0xFF00000000000010000000000000000005#136 = .error .illegalOpcode ∧
  decode 0x0100000000000000000000000000000000#136 = .ok (.f64 0#64 0#64)

/-- 30_encoding.md R50 to R53: encoding and then decoding gives every command back with both operands whole. -/
def Obligations.DecodeOfEncode : Prop := ∀ i : Instr, decode (encode i) = .ok i

/-- 30_encoding.md R52: a descriptor selects the row whose `(cmd AND mask) = match`; at most one row matches; the
all-zero descriptor is not a command. -/
def Obligations.TableRowSelectsCommand : Prop :=
  (∀ d : Descriptor,
    (d &&& 0xFF00000000000000000000000000000000#136 = 0x0100000000000000000000000000000000#136 ↔
      ∃ addr len, decode d = .ok (.f64 addr len)) ∧
    (d &&& 0xFF00000000000000000000000000000000#136 = 0x0200000000000000000000000000000000#136 ↔
      ∃ addr len, decode d = .ok (.f128 addr len)) ∧
    (d &&& 0xFF00000000000000000000000000000000#136 = 0x0300000000000000000000000000000000#136 ↔
      decode d = .ok .sclr) ∧
    (d &&& 0xFF00000000000000000000000000000000#136 = 0x0400000000000000000000000000000000#136 ↔
      ∃ addr len, decode d = .ok (.supd addr len))) ∧
  decode 0#136 = .error .illegalOpcode

/-- 30_encoding.md R54: every other `op` value is illegal, and a descriptor with one is refused: the outcome carries no
state, so no register and no memory byte changes. -/
def Obligations.IllegalOpcodeIsRefused : Prop :=
  ∀ (d : Descriptor) (s : State) (rest : List HostAction),
    d.toNat / 2 ^ 128 ≠ 1 → d.toNat / 2 ^ 128 ≠ 2 → d.toNat / 2 ^ 128 ≠ 3 → d.toNat / 2 ^ 128 ≠ 4 →
    s.pending = .command d :: rest →
    decode d = .error .illegalOpcode ∧ step s = .refused .illegalOpcode

/-- 30_encoding.md R55: the only bits that do not matter are `addr` and `len` of SCLR: all of their values select SCLR,
and of any other command's descriptor every bit matters; an `op` outside the four selects nothing. -/
def Obligations.OnlySclrIgnoresFields : Prop :=
  (∀ addr len : Word64, decode (descriptor 0x03#8 addr len) = .ok .sclr) ∧
  (∀ (d d' : Descriptor) (i : Instr), decode d = .ok i → decode d' = .ok i → i ≠ .sclr → d = d') ∧
  (∀ d : Descriptor, (∃ i, decode d = .ok i) ↔ 1 ≤ d.toNat / 2 ^ 128 ∧ d.toNat / 2 ^ 128 ≤ 4)

/-- 30_encoding.md R56, R53: the decoder returns one of the four commands with `addr = cmd[127:64]` and `len = cmd[63:0]`
exactly as given, or IllegalOpcode. -/
def Obligations.DecoderReturnsWholeFields : Prop :=
  ∀ d : Descriptor, ∃ addr len : Word64,
    addr.toNat = d.toNat / 2 ^ 64 % 2 ^ 64 ∧ len.toNat = d.toNat % 2 ^ 64 ∧
    decode d =
      if d.toNat / 2 ^ 128 = 1 then .ok (.f64 addr len)
      else if d.toNat / 2 ^ 128 = 2 then .ok (.f128 addr len)
      else if d.toNat / 2 ^ 128 = 3 then .ok .sclr
      else if d.toNat / 2 ^ 128 = 4 then .ok (.supd addr len)
      else .error .illegalOpcode

/-- 30_encoding.md R58: a line assembles exactly when its numbers are below 2^64, to a descriptor that decodes to its
command, or for RD to a read with no descriptor. -/
def Obligations.AssemblerLineDecodes : Prop :=
  (∀ line : AsmLine, line.wellFormed = true ↔ line.assemble ≠ none) ∧
  (∀ addr len : Nat, addr < 2 ^ 64 → len < 2 ^ 64 →
    (∃ d, (AsmLine.f64 addr len).assemble = some (.command d) ∧
      decode d = .ok (.f64 (BitVec.ofNat 64 addr) (BitVec.ofNat 64 len))) ∧
    (∃ d, (AsmLine.f128 addr len).assemble = some (.command d) ∧
      decode d = .ok (.f128 (BitVec.ofNat 64 addr) (BitVec.ofNat 64 len))) ∧
    (∃ d, (AsmLine.supd addr len).assemble = some (.command d) ∧
      decode d = .ok (.supd (BitVec.ofNat 64 addr) (BitVec.ofNat 64 len)))) ∧
  AsmLine.sclr.assemble = some (.command 0x0300000000000000000000000000000000#136) ∧
  (∀ r : RegName, r.select < 2 ^ 64 → (AsmLine.rd r).assemble = some (.read (BitVec.ofNat 64 r.select)))

/-! The step. -/

/-- 10_state.md R10: when the host's next action is a descriptor that decodes to a command, the step executes that command
on the state the host's list is left in; nothing else is added around it. -/
def Obligations.StepRunsDecodedCommand : Prop :=
  ∀ (s : State) (d : Descriptor) (rest : List HostAction) (i : Instr),
    s.pending = .command d :: rest → decode d = .ok i → step s = exec i { s with pending := rest }

/-- 70_reset_and_hazards.md R164: with no host action left the run is over and the engine idle; that a step then changes
nothing is the model's choice (log entry 5). -/
def Obligations.IdleEngineStays : Prop := ∀ s : State, s.pending = [] → step s = .next s

/-! The word accumulator. -/

/-- 40_word_accumulator.md R70, R71: `lo' = (lo + word) mod 2^W`, then `hi' = (hi + lo') mod 2^W` with the new `lo`. -/
def Obligations.AccumulateLoThenHi : Prop :=
  (∀ (W : Nat) (a : Pair W) (word : BitVec W),
    (acc a word).lo.toNat = (a.lo.toNat + word.toNat) % 2 ^ W ∧
    (acc a word).hi.toNat = (a.hi.toNat + (acc a word).lo.toNat) % 2 ^ W) ∧
  acc (⟨0#32, 0#32⟩ : Pair 32) 1#32 = ⟨1#32, 1#32⟩

/-- 40_word_accumulator.md R72: `fold_W` and `foldfrom_W` by their equations. -/
def Obligations.FoldTakesWordsInOrder : Prop :=
  ∀ (W : Nat) (a : Pair W) (ws : List (BitVec W)) (x : BitVec W),
    fold ([] : List (BitVec W)) = ⟨0#W, 0#W⟩ ∧
    fold (ws ++ [x]) = acc (fold ws) x ∧
    foldFrom a [] = a ∧
    foldFrom a (ws ++ [x]) = acc (foldFrom a ws) x ∧
    fold ws = foldFrom ⟨0#W, 0#W⟩ ws

/-- 40_word_accumulator.md R73: the closed form, reduced once at the end. -/
def Obligations.FoldClosedForm : Prop :=
  ∀ (W : Nat) (a : Pair W) (ws : List (BitVec W)),
    (foldFrom a ws).lo.toNat =
      (a.lo.toNat + ∑ i ∈ Finset.range ws.length, (ws.getD i 0#W).toNat) % 2 ^ W ∧
    (foldFrom a ws).hi.toNat =
      (a.hi.toNat + ws.length * a.lo.toNat +
        ∑ i ∈ Finset.range ws.length, (ws.length - i) * (ws.getD i 0#W).toNat) % 2 ^ W

/-- 40_word_accumulator.md R74: a fold of a concatenation starts its second part from the fold of the first. -/
def Obligations.FoldOfConcatenation : Prop :=
  ∀ (W : Nat) (a : Pair W) (xs ys : List (BitVec W)), foldFrom a (xs ++ ys) = foldFrom (foldFrom a xs) ys

/-- 40_word_accumulator.md R77: the corner cases of the step, row by row. -/
def Obligations.AccumulatorCornerCases : Prop :=
  (∀ (W : Nat) (a : Pair W),
    (acc a 0#W).lo = a.lo ∧ (acc a 0#W).hi.toNat = (a.hi.toNat + a.lo.toNat) % 2 ^ W) ∧
  fold [1#32] = ⟨1#32, 1#32⟩ ∧
  fold [1#32, 0#32] = ⟨2#32, 1#32⟩ ∧
  (∀ (W n : Nat), fold (List.replicate n 0#W) = ⟨0#W, 0#W⟩) ∧
  (∀ (W : Nat) (a : Pair W) (word : BitVec W), 2 ^ W ≤ a.lo.toNat + word.toNat →
    (acc a word).lo.toNat = a.lo.toNat + word.toNat - 2 ^ W ∧
    (acc a word).hi.toNat = (a.hi.toNat + (a.lo.toNat + word.toNat - 2 ^ W)) % 2 ^ W) ∧
  (∀ (W : Nat) (a : Pair W) (word : BitVec W), 2 ^ W ≤ a.hi.toNat + (acc a word).lo.toNat →
    (acc a word).hi.toNat = a.hi.toNat + (acc a word).lo.toNat - 2 ^ W) ∧
  fold [1#32, 2#32] = ⟨4#32, 3#32⟩ ∧
  fold [2#32, 1#32] = ⟨5#32, 3#32⟩ ∧
  (∀ (W : Nat) (ws ws' : List (BitVec W)), ws.Perm ws' → (fold ws).lo = (fold ws').lo)

/-! Words. -/

/-- 41_tail_padder.md R80, R81: the word counts and their bounds. -/
def Obligations.WordCountAndBounds : Prop :=
  (∀ B len : Nat, 0 < B →
    fullWords B len = len / B ∧ tailBytes B len = len % B ∧
    nwords B len = fullWords B len + (if tailBytes B len > 0 then 1 else 0) ∧
    nwords B len = (len + B - 1) / B) ∧
  (∀ B : Nat, nwords B 0 = 0) ∧
  (∀ len : Nat, len < 2 ^ 64 → nwords 4 len ≤ 2 ^ 62 ∧ nwords 8 len ≤ 2 ^ 61)

/-- 41_tail_padder.md R82: word k is the sum of its existing bytes, the lowest address least significant; and that is
what reading it from memory gives. -/
def Obligations.WordIsLittleEndianSum : Prop :=
  ∀ (W : Nat), W = 32 ∨ W = 64 → ∀ (s : State) (addr len : Word64) (bytes : List Byte) (k : Nat),
    s.Buffer addr len bytes → k < nwords (W / 8) len.toNat →
    (wordAt W bytes k).toNat =
      ∑ j ∈ Finset.range (min (W / 8) (len.toNat - W / 8 * k)), (bytes.getD (W / 8 * k + j) 0#8).toNat * 2 ^ (8 * j) ∧
    s.readWord W addr len k = .next (wordAt W bytes k)

/-- 41_tail_padder.md R82, R83: byte j of word k is the buffer's byte at offset B*k + j, and zero where the buffer has
ended. -/
def Obligations.WordBytePositions : Prop :=
  ∀ (W : Nat), W = 32 ∨ W = 64 → ∀ (bytes : List Byte) (k j : Nat), j < W / 8 →
    (wordAt W bytes k).extractLsb' (8 * j) 8 =
      if W / 8 * k + j < bytes.length then bytes.getD (W / 8 * k + j) 0#8 else 0#8

/-- 41_tail_padder.md R84: the words of a buffer are its words 0 to nwords - 1 in ascending order; none when it is
empty. -/
def Obligations.WordListAscends : Prop :=
  ∀ (W : Nat), W = 32 ∨ W = 64 → ∀ (bytes : List Byte),
    (wordsOf W bytes).length = nwords (W / 8) bytes.length ∧
    (∀ k, k < nwords (W / 8) bytes.length → (wordsOf W bytes)[k]? = some (wordAt W bytes k)) ∧
    (bytes.length = 0 → wordsOf W bytes = [])

/-- 41_tail_padder.md R86: a buffer and the same buffer zero-extended to its next word boundary have the same words, and
every command gives the same result for both. -/
def Obligations.TailPaddingEquivalence : Prop :=
  (∀ (W : Nat), W = 32 ∨ W = 64 → ∀ (bytes : List Byte),
    wordsOf W (bytes ++ List.replicate (W / 8 * nwords (W / 8) bytes.length - bytes.length) 0#8) = wordsOf W bytes) ∧
  (∀ (s : State) (addr len len' : Word64) (bytes : List Byte), len.toNat = bytes.length →
    s.Buffer addr len' (bytes ++ List.replicate (4 * nwords 4 bytes.length - bytes.length) 0#8) →
    exec (.f64 addr len) s = exec (.f64 addr len') s) ∧
  (∀ (s : State) (addr len len' : Word64) (bytes : List Byte), len.toNat = bytes.length →
    s.Buffer addr len' (bytes ++ List.replicate (8 * nwords 8 bytes.length - bytes.length) 0#8) →
    exec (.f128 addr len) s = exec (.f128 addr len') s ∧ exec (.supd addr len) s = exec (.supd addr len') s)

/-- 20_memory.md R46: where both 32-bit words are full a 64-bit word is made of them; and the Fletcher-128 value is not a
function of the Fletcher-64 value. -/
def Obligations.MixedWidthWords : Prop :=
  (∀ (bytes : List Byte) (k : Nat), 4 * (2 * k + 1) + 4 ≤ bytes.length →
    (wordAt 64 bytes k).toNat = (wordAt 32 bytes (2 * k)).toNat + 2 ^ 32 * (wordAt 32 bytes (2 * k + 1)).toNat) ∧
  (∃ b b' : List Byte, pack (fold (wordsOf 32 b)) = pack (fold (wordsOf 32 b')) ∧
    fold (wordsOf 64 b) ≠ fold (wordsOf 64 b'))

/-! The commands. -/

/-- 42_fletcher64.md R90: F64 on an admitted buffer completes; RES64 becomes `hi * 2^32 + lo` of the 32-bit fold of the
buffer's words, from (0, 0), and nothing else changes. A buffer that wraps or is not readable is refused. -/
def Obligations.F64WritesPackedFold : Prop :=
  ∀ (s : State) (addr len : Word64),
    (2 ^ 64 < addr.toNat + len.toNat → exec (.f64 addr len) s = .refused .bufferWraps) ∧
    (addr.toNat + len.toNat ≤ 2 ^ 64 → (∃ i, i < len.toNat ∧ s.readByte (addr.toNat + i) = none) →
      exec (.f64 addr len) s = .refused .bufferNotReadable) ∧
    (∀ bytes, s.Buffer addr len bytes →
      ∃ v : Word64, v.toNat = (fold (wordsOf 32 bytes)).hi.toNat * 2 ^ 32 + (fold (wordsOf 32 bytes)).lo.toNat ∧
        exec (.f64 addr len) s = .next { s with res64 := ⟨v, true⟩ })

/-- 43_fletcher128.md R100: F128 on an admitted buffer completes; RES128_HI and RES128_LO become the 64-bit fold of the
buffer's words, from (0, 0), and nothing else changes. A buffer that wraps or is not readable is refused. -/
def Obligations.F128WritesFold : Prop :=
  ∀ (s : State) (addr len : Word64),
    (2 ^ 64 < addr.toNat + len.toNat → exec (.f128 addr len) s = .refused .bufferWraps) ∧
    (addr.toNat + len.toNat ≤ 2 ^ 64 → (∃ i, i < len.toNat ∧ s.readByte (addr.toNat + i) = none) →
      exec (.f128 addr len) s = .refused .bufferNotReadable) ∧
    (∀ bytes, s.Buffer addr len bytes →
      exec (.f128 addr len) s =
        .next { s with
          res128Hi := ⟨(fold (wordsOf 64 bytes)).hi, true⟩
          res128Lo := ⟨(fold (wordsOf 64 bytes)).lo, true⟩ })

/-- 44_striped128.md R110: SCLR completes in every state; every stripe register becomes 0 and specified, nothing else
changes, and a second SCLR changes nothing. -/
def Obligations.SclrZeroesEveryStripe : Prop :=
  ∀ s : State, ∃ S : List Stripe,
    exec .sclr s = .next { s with stripes := S } ∧
    S.length = s.cfgN.toNat ∧
    (∀ i, i < s.cfgN.toNat → S[i]? = some ⟨⟨0#64, true⟩, ⟨0#64, true⟩⟩) ∧
    exec .sclr { s with stripes := S } = .next { s with stripes := S }

/-- 44_striped128.md R117: SUPD completes when every stripe that receives a word holds a value; then each stripe on its
own goes on from its own value over its own lane list, and nothing else changes. -/
def Obligations.SupdUpdatesEachLane : Prop :=
  ∀ (s : State) (addr len : Word64) (bytes : List Byte), s.Buffer addr len bytes →
    1 ≤ s.cfgN.toNat → s.stripes.length = s.cfgN.toNat → s.StripesSpecified (nwords 8 len.toNat) →
    ∃ S : List Stripe, exec (.supd addr len) s = .next { s with stripes := S } ∧ S.length = s.cfgN.toNat ∧
      ∀ i st, s.stripes[i]? = some st →
        S[i]? = some (if i < nwords 8 len.toNat then
            ⟨⟨(foldFrom ⟨st.hi.value, st.lo.value⟩ (lane s.cfgN.toNat i (wordsOf 64 bytes))).hi, true⟩,
             ⟨(foldFrom ⟨st.hi.value, st.lo.value⟩ (lane s.cfgN.toNat i (wordsOf 64 bytes))).lo, true⟩⟩
          else st)

/-- 44_striped128.md R112, R115: a lane holds the words whose position is the stripe's index modulo N, ascending, and
`count_i = (nwords + N - 1 - i) div N` of them. -/
def Obligations.LaneIsRoundRobin : Prop :=
  ∀ (n i : Nat) (ws : List Word64), i < n →
    lane n i ws = ((List.range ws.length).filter fun w => w % n = i).map (fun w => ws.getD w 0#64) ∧
    (lane n i ws).length = (ws.length + n - 1 - i) / n ∧
    (lane n i ws ≠ [] ↔ i < ws.length)

/-- 44_striped128.md R116: a stripe with index `nwords_8(len)` or above is not written, and not read either (SUPD
completes whatever it holds, unspecified or not); such stripes exist only when `len <= 8*(N-1)`; an empty chunk changes
nothing at all. -/
def Obligations.UntouchedStripes : Prop :=
  (∀ (s t : State) (addr len : Word64), 1 ≤ s.cfgN.toNat → exec (.supd addr len) s = .next t →
    ∀ i, i < s.cfgN.toNat → nwords 8 len.toNat ≤ i → t.stripes[i]? = s.stripes[i]?) ∧
  (∀ (s : State) (addr len : Word64) (bytes : List Byte), s.Buffer addr len bytes → 1 ≤ s.cfgN.toNat →
    s.stripes.length = s.cfgN.toNat → s.StripesSpecified (nwords 8 len.toNat) →
    ∃ t, exec (.supd addr len) s = .next t) ∧
  (∀ N len : Nat, 1 ≤ N → ((∃ i, i < N ∧ nwords 8 len ≤ i) ↔ len ≤ 8 * (N - 1))) ∧
  (∀ (s : State) (addr : Word64), exec (.supd addr 0#64) s = .next s)

/-- 10_state.md R24, 44_striped128.md R112: SUPD faults when a stripe that would receive a word is unspecified. -/
def Obligations.SupdFaultsOnUnspecifiedStripe : Prop :=
  ∀ (s : State) (addr len : Word64) (bytes : List Byte) (i : Nat) (st : Stripe), s.Buffer addr len bytes →
    i < s.cfgN.toNat → i < nwords 8 len.toNat → s.stripes[i]? = some st →
    (st.hi.specified = false ∨ st.lo.specified = false) →
    exec (.supd addr len) s = .fault .unspecifiedRegisterRead

/-- 20_memory.md R33: a buffer that wraps the address space is refused; with `len = 0` every address is accepted. -/
def Obligations.WrappingBufferIsRefused : Prop :=
  (∀ (s : State) (addr len : Word64), 2 ^ 64 < addr.toNat + len.toNat →
    exec (.f64 addr len) s = .refused .bufferWraps ∧
    exec (.f128 addr len) s = .refused .bufferWraps ∧
    exec (.supd addr len) s = .refused .bufferWraps) ∧
  (∀ (s : State) (addr : Word64),
    (∃ t, exec (.f64 addr 0#64) s = .next t) ∧
    (∃ t, exec (.f128 addr 0#64) s = .next t) ∧
    (∃ t, exec (.supd addr 0#64) s = .next t))

/-- 30_encoding.md R57: first the opcode, then the address range, then the readability of the footprint; the first check
that fails names the refusal, and when all pass the command is not refused. -/
def Obligations.ChecksInOrder : Prop :=
  ∀ (s : State) (d : Descriptor) (rest : List HostAction), s.pending = .command d :: rest →
    (decode d = .error .illegalOpcode → step s = .refused .illegalOpcode) ∧
    (∀ addr len : Word64,
      (decode d = .ok (.f64 addr len) ∨ decode d = .ok (.f128 addr len) ∨ decode d = .ok (.supd addr len)) →
      (2 ^ 64 < addr.toNat + len.toNat → step s = .refused .bufferWraps) ∧
      (addr.toNat + len.toNat ≤ 2 ^ 64 → (∃ i, i < len.toNat ∧ s.readByte (addr.toNat + i) = none) →
        step s = .refused .bufferNotReadable) ∧
      (addr.toNat + len.toNat ≤ 2 ^ 64 → (∀ i, i < len.toNat → s.readByte (addr.toNat + i) ≠ none) →
        ∀ r, step s ≠ .refused r)) ∧
    (decode d = .ok .sclr → ∀ r, step s ≠ .refused r)

/-- 20_memory.md R35: what a command answers depends on the engine's registers and on the bytes of its footprint, and on
nothing else: two states that agree on these answer alike. -/
def Obligations.OutcomeDependsOnFootprint : Prop :=
  ∀ (i : Instr) (s t : State), s.SameRegisters t →
    (∀ addr len, (i = .f64 addr len ∨ i = .f128 addr len ∨ i = .supd addr len) →
      ∀ a, addr.toNat ≤ a → a < addr.toNat + len.toNat → s.readByte a = t.readByte a) →
    OutcomeRelated State.SameRegisters (exec i s) (exec i t)

/-- 42_fletcher64.md R92 item 1, 43_fletcher128.md R101 item 1, 44_striped128.md R122: an empty buffer gives 0, (0, 0), and
no change, at every address. -/
def Obligations.ZeroLengthResults : Prop :=
  ∀ (s : State) (addr : Word64),
    exec (.f64 addr 0#64) s = .next { s with res64 := ⟨0#64, true⟩ } ∧
    exec (.f128 addr 0#64) s = .next { s with res128Hi := ⟨0#64, true⟩, res128Lo := ⟨0#64, true⟩ } ∧
    exec (.supd addr 0#64) s = .next s

/-- 95_test_vectors.md V2 (the source's own vector), V19, and the example of 43_fletcher128.md R104, at every address. -/
def Obligations.KnownVectors : Prop :=
  (∀ (s : State) (addr : Word64), s.Buffer addr 4#64 [0x01, 0x00, 0x00, 0x00] →
    exec (.f64 addr 4#64) s = .next { s with res64 := ⟨0x0000000100000001#64, true⟩ }) ∧
  (∀ (s : State) (addr : Word64), s.Buffer addr 8#64 [0x01, 0x00, 0x00, 0x00, 0x00, 0x00, 0x00, 0x00] →
    exec (.f64 addr 8#64) s = .next { s with res64 := ⟨0x0000000200000001#64, true⟩ }) ∧
  (∀ (s : State) (addr : Word64), s.Buffer addr 8#64 [0x01, 0x02, 0x03, 0x04, 0x05, 0x06, 0x07, 0x08] →
    exec (.f64 addr 8#64) s = .next { s with res64 := ⟨0x100D0A070C0A0806#64, true⟩ } ∧
    exec (.f128 addr 8#64) s =
      .next { s with res128Hi := ⟨0x0807060504030201#64, true⟩, res128Lo := ⟨0x0807060504030201#64, true⟩ })

/-- 43_fletcher128.md R101 item 3, 44_striped128.md R121: with one stripe, SCLR and SUPD leave in `S[0]` what F128 writes
for the same buffer. -/
def Obligations.OneStripeEqualsF128 : Prop :=
  ∀ (s : State) (addr len : Word64) (bytes : List Byte), s.cfgN.toNat = 1 → s.Buffer addr len bytes →
    ∃ s₁ s₂ t, exec .sclr s = .next s₁ ∧ exec (.supd addr len) s₁ = .next s₂ ∧ exec (.f128 addr len) s = .next t ∧
      s₂.stripes = [⟨t.res128Hi, t.res128Lo⟩]

/-- 44_striped128.md R121: after SCLR and SUPDs over the chunks of a file, every chunk but the last a multiple of
N * BLOCK_SIZE long, each stripe holds the fold of the file's words dealt to it. -/
def Obligations.ChunkedFileGivesLaneFolds : Prop :=
  ∀ (s s₀ t : State) (chunks : List (List Byte)), 1 ≤ s.cfgN.toNat → s.cfgBs.toNat % 8 = 0 →
    exec .sclr s = .next s₀ → ChunkRun s₀ chunks t → ChunkDuty (s.cfgN.toNat * s.cfgBs.toNat) chunks →
    ∀ i, i < s.cfgN.toNat →
      t.stripes[i]? = some ⟨⟨(fold (lane s.cfgN.toNat i (wordsOf 64 chunks.flatten))).hi, true⟩,
        ⟨(fold (lane s.cfgN.toNat i (wordsOf 64 chunks.flatten))).lo, true⟩⟩

/-- 44_striped128.md R114: BLOCK_SIZE has no influence on what SUPD does. -/
def Obligations.BlockSizeHasNoInfluence : Prop :=
  ∀ (s : State) (addr len blockSize : Word64),
    exec (.supd addr len) { s with cfgBs := blockSize } =
      andThen (exec (.supd addr len) s) fun t => .next { t with cfgBs := blockSize }

/-- 44_striped128.md R113: the source's padded range is `ceil8(len)`, holds `nwords_8(len)` words, and its words are those
of the buffer. -/
def Obligations.PaddedRangeIsWordCount : Prop :=
  ∀ (bytes : List Byte) (blockSize range : Nat), 8 ≤ blockSize → blockSize % 8 = 0 →
    range = bytes.length / blockSize * blockSize + 8 * ((bytes.length % blockSize + 7) / 8) →
    range = 8 * ((bytes.length + 7) / 8) ∧
    range / 8 = nwords 8 bytes.length ∧
    wordsOf 64 (bytes ++ List.replicate (range - bytes.length) 0#8) = wordsOf 64 bytes

/-! Whole-machine rules. -/

/-- 10_state.md R12, R13, R15, R16, 20_memory.md R37: a command that completes leaves memory, the configuration and the
host's lists alone; only F64 writes RES64, only F128 writes RES128_HI and RES128_LO, only SCLR and SUPD write stripes. -/
def Obligations.CommandsLeaveTheRestAlone : Prop :=
  ∀ (i : Instr) (s t : State), exec i s = .next t →
    (∀ a, t.readByte a = s.readByte a) ∧ t.mem = s.mem ∧ t.withheld = s.withheld ∧
    t.cfgN = s.cfgN ∧ t.cfgBs = s.cfgBs ∧ t.pending = s.pending ∧ t.output = s.output ∧
    ((∀ addr len, i ≠ .f64 addr len) → t.res64 = s.res64) ∧
    ((∀ addr len, i ≠ .f128 addr len) → t.res128Hi = s.res128Hi ∧ t.res128Lo = s.res128Lo) ∧
    (i ≠ .sclr → (∀ addr len, i ≠ .supd addr len) → t.stripes = s.stripes)

/-- 10_state.md R17: no step changes CFG_N or CFG_BS. -/
def Obligations.ConfigurationIsHardwired : Prop :=
  ∀ s t : State, step s = .next t → t.cfgN = s.cfgN ∧ t.cfgBs = s.cfgBs

/-- 20_memory.md R37, 70_reset_and_hazards.md R150, R164: a byte changes only by the host's own write to it, never by a
command, a register read or a reset. That a byte which was not readable before reads as written is the model's choice
(log entry 6). -/
def Obligations.MemoryChangesOnlyByHostWrite : Prop :=
  ∀ (s t : State) (x : Nat), step s = .next t → t.readByte x ≠ s.readByte x →
    ∃ a b rest, s.pending = .write a b :: rest ∧ x = a.toNat ∧ t.readByte x = some b

/-- Every step keeps the states of an engine this spec describes: canonical memory, legal parameters (00_scope.md R5), N
stripe accumulators (10_state.md R14), each Checksum128 specified as a pair (10_state.md R24). -/
def Obligations.StepKeepsLegalStates : Prop := ∀ s t : State, s.Legal → step s = .next t → t.Legal

/-- The state after reset is one of them. -/
def Obligations.ResetStateIsLegal : Prop := State.reset.Legal

/-- 10_state.md R24: the bits a register stores while it is unspecified are no value a step can use: states that differ
only in them step alike, whatever the model's reset stores there (log entry 1). -/
def Obligations.UnspecifiedBitsAreInvisible : Prop :=
  ∀ s t : State, s.Indistinct t → OutcomeRelated State.Indistinct (step s) (step t)

/-- 60_exceptions.md R132, R142: a step's only fault is UnspecifiedRegisterRead, of a register read or a SUPD, and its only
refusals are the four an atomic model can meet. -/
def Obligations.StopsAreTheNamedOnes : Prop :=
  ∀ s : State,
    (∀ f, step s = .fault f → f = .unspecifiedRegisterRead ∧
      ∃ a rest, s.pending = a :: rest ∧
        ((∃ rsel, a = .read rsel) ∨ ∃ d addr len, a = .command d ∧ decode d = .ok (.supd addr len))) ∧
    (∀ r, step s = .refused r →
      r = .illegalOpcode ∨ r = .bufferWraps ∨ r = .bufferNotReadable ∨ r = .badRegisterSelect)

/-- 00_scope.md R5: an engine is built exactly from parameters with N >= 1 and BLOCK_SIZE a positive multiple of 8, and
it is built legal with CFG_N = N and CFG_BS = BLOCK_SIZE. -/
def Obligations.OnlyLegalInstancesAreBuilt : Prop :=
  ∀ p : Params,
    ((∃ s, State.instantiate p = some s) ↔
      1 ≤ p.n.toNat ∧ 8 ≤ p.blockSize.toNat ∧ p.blockSize.toNat % 8 = 0) ∧
    (∀ s, State.instantiate p = some s → s.Legal ∧ s.cfgN = p.n ∧ s.cfgBs = p.blockSize)

/-! The read port. -/

/-- 10_state.md R19: each select number returns its register to the host and changes nothing else. -/
def Obligations.ReadPortReturnsRegister : Prop :=
  ∀ (s : State) (rsel : Word64) (rest : List HostAction) (v : Word64), s.pending = .read rsel :: rest →
    ((rsel.toNat = 0x00 ∧ s.res64 = ⟨v, true⟩) ∨
     (rsel.toNat = 0x01 ∧ s.res128Lo = ⟨v, true⟩) ∨
     (rsel.toNat = 0x02 ∧ s.res128Hi = ⟨v, true⟩) ∨
     (rsel.toNat = 0x03 ∧ s.cfgN = v) ∨
     (rsel.toNat = 0x04 ∧ s.cfgBs = v) ∨
     (∃ i st, i < s.cfgN.toNat ∧ s.stripes[i]? = some st ∧
       ((rsel.toNat = 0x100 + 2 * i ∧ st.lo = ⟨v, true⟩) ∨ (rsel.toNat = 0x100 + 2 * i + 1 ∧ st.hi = ⟨v, true⟩)))) →
    step s = .next { s with pending := rest, output := s.output ++ [v] }

/-- 10_state.md R19, R24: a select number that names no register of this instance is refused; a register that is
unspecified is a fault. -/
def Obligations.ReadPortStops : Prop :=
  ∀ (s : State) (rsel : Word64) (rest : List HostAction), s.pending = .read rsel :: rest →
    (((0x05 ≤ rsel.toNat ∧ rsel.toNat < 0x100) ∨ 0x100 + 2 * s.cfgN.toNat ≤ rsel.toNat) →
      step s = .refused .badRegisterSelect) ∧
    (((rsel.toNat = 0x00 ∧ s.res64.specified = false) ∨
      (rsel.toNat = 0x01 ∧ s.res128Lo.specified = false) ∨
      (rsel.toNat = 0x02 ∧ s.res128Hi.specified = false) ∨
      (∃ i st, i < s.cfgN.toNat ∧ s.stripes[i]? = some st ∧
        ((rsel.toNat = 0x100 + 2 * i ∧ st.lo.specified = false) ∨
         (rsel.toNat = 0x100 + 2 * i + 1 ∧ st.hi.specified = false)))) →
      step s = .fault .unspecifiedRegisterRead)

/-! Reset and the host. -/

/-- 10_state.md R25: right after reset every result and stripe register is unspecified, CFG_N and CFG_BS hold the
parameters, and there are N stripes. That memory lists nothing and that both lists of the host are empty is the model's
choice (log entries 2 and 5). -/
def Obligations.ResetStateIsUnspecified : Prop :=
  State.reset.res64.specified = false ∧ State.reset.res128Hi.specified = false ∧
  State.reset.res128Lo.specified = false ∧
  State.reset.cfgN = Config.stripeCount ∧ State.reset.cfgBs = Config.blockSize ∧
  State.reset.stripes.length = Config.stripeCount.toNat ∧
  (∀ st ∈ State.reset.stripes, st.hi.specified = false ∧ st.lo.specified = false) ∧
  (∀ a, State.reset.readByte a = none) ∧ State.reset.pending = [] ∧ State.reset.output = []

/-- 70_reset_and_hazards.md R150, 10_state.md R25: the reset event leaves every result and stripe register unspecified,
the configuration and every byte of memory as they were. That the host's list goes on with its rest and its output stays
is the model's choice (log entry 7). -/
def Obligations.ResetEventForgetsRegisters : Prop :=
  ∀ (s : State) (rest : List HostAction), s.pending = .reset :: rest →
    ∃ t, step s = .next t ∧ t.res64.specified = false ∧ t.res128Hi.specified = false ∧ t.res128Lo.specified = false ∧
      t.stripes.length = s.cfgN.toNat ∧ (∀ st ∈ t.stripes, st.hi.specified = false ∧ st.lo.specified = false) ∧
      t.cfgN = s.cfgN ∧ t.cfgBs = s.cfgBs ∧ (∀ a, t.readByte a = s.readByte a) ∧
      t.pending = rest ∧ t.output = s.output

/-- 20_memory.md R36, R41 item 2: after a host write the byte reads as written and every other byte as before; no register
changes. Log entry 6 holds both choices of the model: that a write to any address the platform does not withhold, even
one that was not readable before, makes its byte readable; and that a write to a withheld address changes nothing. -/
def Obligations.HostWriteIsReadBack : Prop :=
  ∀ (s : State) (a : Word64) (b : Byte) (rest : List HostAction), s.pending = .write a b :: rest →
    ∃ t, step s = .next t ∧ s.SameRegisters t ∧ t.pending = rest ∧ t.output = s.output ∧
      (s.withholds a.toNat = false → t.readByte a.toNat = some b) ∧
      (s.withholds a.toNat = true → t.mem = s.mem) ∧
      (∀ x, x ≠ a.toNat → t.readByte x = s.readByte x)

/-- 70_reset_and_hazards.md R153, R156: the host's striped procedure cuts a file into non-empty chunks that make it up in
order, every one but the last of N * BLOCK_SIZE bytes, so it meets the chunk duty. -/
def Obligations.ProcedureMeetsChunkDuty : Prop :=
  ∀ (size : Nat) (file : List Byte), 0 < size →
    (chunksOf size file.length file).flatten = file ∧
    ChunkDuty size (chunksOf size file.length file) ∧
    (∀ c ∈ chunksOf size file.length file, 0 < c.length ∧ c.length ≤ size) ∧
    (∀ c ∈ (chunksOf size file.length file).dropLast, c.length = size)

/-- 70_reset_and_hazards.md R153, 44_striped128.md R121: from every legal state the host's striped procedure over any file
runs to its end with no refusal and no fault, and the values it reads are, stripe by stripe, `hi` then `lo` of the fold
of the file's words dealt to that stripe. That the procedure completes although the block buffer's bytes may not have been
readable before the host wrote them is the model's choice (log entry 6); the premises on 2^64 keep every address, length
and select number within 64 bits, beyond which log entry 11 is the model's choice. -/
def Obligations.StripedProcedureDeliversLaneFolds : Prop :=
  ∀ (s : State) (buf : Word64) (file : List Byte), s.Legal →
    s.cfgN.toNat * s.cfgBs.toNat < 2 ^ 64 → buf.toNat + s.cfgN.toNat * s.cfgBs.toNat ≤ 2 ^ 64 →
    0x100 + 2 * s.cfgN.toNat ≤ 2 ^ 64 →
    (∀ a, buf.toNat ≤ a → a < buf.toNat + s.cfgN.toNat * s.cfgBs.toNat → s.withholds a = false) →
    s.pending = stripedFile s.cfgN.toNat s.cfgBs.toNat buf file →
    ∃ k t, SafeRun k s t ∧ t.pending = [] ∧
      t.output = s.output ++ (List.range s.cfgN.toNat).flatMap fun i =>
        [(fold (lane s.cfgN.toNat i (wordsOf 64 file))).hi, (fold (lane s.cfgN.toNat i (wordsOf 64 file))).lo]

/-! The stepped view. -/

/-- 42_fletcher64.md R94: F64 word by word: after k steps the working accumulator is the fold of the first k words, and
one step after `nwords_4(len)` of them the result is that of the atomic command. -/
def Obligations.WordStepsComputeF64 : Prop :=
  ∀ (s : State) (addr len : Word64) (bytes : List Byte), s.Buffer addr len bytes →
    ∃ p t, beginCommand (.f64 addr len) s = .next p ∧ exec (.f64 addr len) s = .next t ∧
      (∀ k, k ≤ nwords 4 len.toNat →
        wordSteps k p = .next ⟨s, some (.f64 addr len k (fold ((wordsOf 32 bytes).take k)))⟩) ∧
      wordSteps (nwords 4 len.toNat + 1) p = .next ⟨t, none⟩

/-- 43_fletcher128.md R103: F128 word by word, likewise. -/
def Obligations.WordStepsComputeF128 : Prop :=
  ∀ (s : State) (addr len : Word64) (bytes : List Byte), s.Buffer addr len bytes →
    ∃ p t, beginCommand (.f128 addr len) s = .next p ∧ exec (.f128 addr len) s = .next t ∧
      (∀ k, k ≤ nwords 8 len.toNat →
        wordSteps k p = .next ⟨s, some (.f128 addr len k (fold ((wordsOf 64 bytes).take k)))⟩) ∧
      wordSteps (nwords 8 len.toNat + 1) p = .next ⟨t, none⟩

/-- 10_state.md R18, 44_striped128.md R112: SUPD word by word on the stripe registers ends in the state of the atomic
command, one step after `nwords_8(len)` of them. -/
def Obligations.WordStepsComputeSupd : Prop :=
  ∀ (s t : State) (addr len : Word64), exec (.supd addr len) s = .next t →
    ∃ p, beginCommand (.supd addr len) s = .next p ∧ wordSteps (nwords 8 len.toNat + 1) p = .next ⟨t, none⟩

/-- 20_memory.md R40: in the stepped view a host write into the footprint of the command in flight is the refusal
BufferRace, and one outside it commutes with the command's next step, stops included. -/
def Obligations.RacesAreRefused : Prop :=
  ∀ (t : Stepped) (f : Flight) (a : Nat) (b : Byte), t.flight = some f →
    (f.reads a = true → t.hostWrite a b = .refused .bufferRace) ∧
    (f.reads a = false →
      andThen (t.hostWrite a b) wordStep = andThen (wordStep t) fun t' => t'.hostWrite a b)

/-- 70_reset_and_hazards.md R150, 10_state.md R25: a reset applied while a command runs abandons it: nothing is in flight,
every result register and every register of the N stripes is unspecified, the configuration and memory are as they
were. -/
def Obligations.ResetAbandonsCommand : Prop :=
  ∀ t : Stepped,
    t.resetDuring.flight = none ∧ t.resetDuring.arch.res64.specified = false ∧
    t.resetDuring.arch.res128Hi.specified = false ∧ t.resetDuring.arch.res128Lo.specified = false ∧
    t.resetDuring.arch.stripes.length = t.arch.cfgN.toNat ∧
    (∀ st ∈ t.resetDuring.arch.stripes, st.hi.specified = false ∧ st.lo.specified = false) ∧
    t.resetDuring.arch.cfgN = t.arch.cfgN ∧ t.resetDuring.arch.cfgBs = t.arch.cfgBs ∧
    (∀ a, t.resetDuring.arch.readByte a = t.arch.readByte a)
end

