-- ==== Sys2Proof/Laws/Outcome.lean ====
section
/-! SUPPORT. Taking apart an outcome that goes on with `andThen` or stops with `orStop`. -/

namespace Sys2Proof.Machine

variable {α β : Type}

@[simp] theorem andThen_next (a : α) (f : α → Host.Outcome β Fault Refusal) : andThen (.next a) f = f a := rfl
@[simp] theorem andThen_fault (r : Fault) (f : α → Host.Outcome β Fault Refusal) : andThen (.fault r) f = .fault r := rfl
@[simp] theorem andThen_refused (r : Refusal) (f : α → Host.Outcome β Fault Refusal) :
    andThen (.refused r) f = .refused r := rfl
@[simp] theorem orStop_some (a : α) (o : Host.Outcome α Fault Refusal) : orStop (some a) o = .next a := rfl
@[simp] theorem orStop_none (o : Host.Outcome α Fault Refusal) : orStop none o = o := rfl

/-- A next state comes from a next value. -/
theorem andThen_eq_next {o : Host.Outcome α Fault Refusal} {f : α → Host.Outcome β Fault Refusal} {b : β} :
    andThen o f = .next b ↔ ∃ a, o = .next a ∧ f a = .next b := by
  cases o <;> simp

theorem andThen_eq_fault {o : Host.Outcome α Fault Refusal} {f : α → Host.Outcome β Fault Refusal} {r : Fault} :
    andThen o f = .fault r ↔ o = .fault r ∨ ∃ a, o = .next a ∧ f a = .fault r := by
  cases o <;> simp

theorem andThen_eq_refused {o : Host.Outcome α Fault Refusal} {f : α → Host.Outcome β Fault Refusal} {r : Refusal} :
    andThen o f = .refused r ↔ o = .refused r ∨ ∃ a, o = .next a ∧ f a = .refused r := by
  cases o <;> simp

theorem orStop_eq_next {v : Option α} {o : Host.Outcome α Fault Refusal} {a : α} :
    orStop v o = .next a ↔ v = some a ∨ (v = none ∧ o = .next a) := by
  cases v <;> simp

end Sys2Proof.Machine
end

