-- ==== Sys2Proof/Laws/Accumulator.lean ====
section
/-! SUPPORT. The word accumulator and the assembly of words (40_word_accumulator.md, 41_tail_padder.md). -/

namespace Sys2Proof.Machine

variable {W : Nat}

@[simp] theorem acc_lo (a : Pair W) (x : BitVec W) : (acc a x).lo = a.lo + x := rfl
@[simp] theorem acc_hi (a : Pair W) (x : BitVec W) : (acc a x).hi = a.hi + (a.lo + x) := rfl
@[simp] theorem foldFrom_nil (a : Pair W) : foldFrom a [] = a := rfl
@[simp] theorem foldFrom_cons (a : Pair W) (x : BitVec W) (xs : List (BitVec W)) :
    foldFrom a (x :: xs) = foldFrom (acc a x) xs := rfl

/-- The fold of a concatenation goes on from the fold of its first part. -/
theorem foldFrom_append (a : Pair W) (xs ys : List (BitVec W)) :
    foldFrom a (xs ++ ys) = foldFrom (foldFrom a xs) ys := List.foldl_append

theorem foldFrom_snoc (a : Pair W) (xs : List (BitVec W)) (x : BitVec W) :
    foldFrom a (xs ++ [x]) = acc (foldFrom a xs) x := foldFrom_append a xs [x]

/-- A Checksum64 packs `hi` above `lo` (10_state.md R12). -/
theorem pack_toNat (p : Pair 32) : (pack p).toNat = p.hi.toNat * 2 ^ 32 + p.lo.toNat := by
  have h : (pack p).toNat = (p.hi ++ p.lo).toNat := rfl
  rw [h, BitVec.toNat_append, ← Nat.shiftLeft_add_eq_or_of_lt p.lo.isLt, Nat.shiftLeft_eq]

/-! Little-endian values. -/

theorem littleEndian_lt (bs : List Byte) : littleEndian bs < 256 ^ bs.length := by
  induction bs with
  | nil => simp [littleEndian]
  | cons b bs ih =>
    have hb := b.isLt
    simp only [littleEndian, List.length_cons, Nat.pow_succ]
    omega

theorem littleEndian_append (xs ys : List Byte) :
    littleEndian (xs ++ ys) = littleEndian xs + 256 ^ xs.length * littleEndian ys := by
  induction xs with
  | nil => simp [littleEndian]
  | cons b bs ih =>
    simp only [List.cons_append, littleEndian, ih, List.length_cons, Nat.pow_succ, Nat.mul_add, Nat.add_assoc]
    congr 2
    rw [← Nat.mul_assoc, Nat.mul_comm 256]

theorem littleEndian_zeros (n : Nat) : littleEndian (List.replicate n 0#8) = 0 := by
  induction n with
  | zero => rfl
  | succ n ih => simp [List.replicate_succ, littleEndian, ih]

/-! Word counts. -/

theorem nwords_eq {B : Nat} (hB : 0 < B) (len : Nat) : nwords B len = (len + B - 1) / B := by
  unfold nwords fullWords tailBytes
  have h := Nat.div_add_mod len B
  have hlt := Nat.mod_lt len hB
  generalize hq : len / B = q at h
  generalize hr : len % B = r at h hlt
  symm
  split
  · rw [Nat.div_eq_of_lt_le]
    · rw [Nat.add_mul, Nat.mul_comm]; omega
    · rw [Nat.add_mul, Nat.add_mul, Nat.mul_comm]; omega
  · rw [Nat.div_eq_of_lt_le]
    · rw [Nat.add_mul, Nat.mul_comm]; omega
    · rw [Nat.add_mul, Nat.add_mul, Nat.mul_comm]; omega

theorem nwords_zero (B : Nat) : nwords B 0 = 0 := by simp [nwords, fullWords, tailBytes]

/-- Word `k` exists exactly when a byte of it does. -/
theorem lt_nwords_iff {B : Nat} (hB : 0 < B) (len k : Nat) : k < nwords B len ↔ B * k < len := by
  rw [nwords_eq hB, Nat.lt_iff_add_one_le, Nat.le_div_iff_mul_le hB, Nat.add_mul, Nat.mul_comm]
  omega

@[simp] theorem wordsOf_length (W : Nat) (bytes : List Byte) :
    (wordsOf W bytes).length = nwords (W / 8) bytes.length := by
  simp [wordsOf]

@[simp] theorem wordsOf_getElem (W : Nat) (bytes : List Byte) (k : Nat) (h : k < (wordsOf W bytes).length) :
    (wordsOf W bytes)[k] = wordAt W bytes k := by
  simp [wordsOf]

/-- The bytes of word `k`. -/
def wordSlice (B : Nat) (bytes : List Byte) (k : Nat) : List Byte :=
  (bytes.drop (B * k)).take (wordBytes B bytes.length k)

theorem wordSlice_eq_take (B : Nat) (bytes : List Byte) (k : Nat) :
    wordSlice B bytes k = (bytes.drop (B * k)).take B := by
  unfold wordSlice wordBytes
  rcases Nat.le_total B (bytes.length - B * k) with h | h
  · rw [Nat.min_eq_left h]
  · rw [Nat.min_eq_right h, List.take_of_length_le (by simp), List.take_of_length_le (by simp; omega)]

theorem wordSlice_length (B : Nat) (bytes : List Byte) (k : Nat) :
    (wordSlice B bytes k).length = wordBytes B bytes.length k := by
  simp [wordSlice, wordBytes]

/-- A word's value is the little-endian value of its bytes: nothing is cut off. -/
theorem wordAt_toNat {W : Nat} (hW : W % 8 = 0) (bytes : List Byte) (k : Nat) :
    (wordAt W bytes k).toNat = littleEndian (wordSlice (W / 8) bytes k) := by
  unfold wordAt
  rw [BitVec.toNat_ofNat]
  apply Nat.mod_eq_of_lt
  have h := littleEndian_lt (wordSlice (W / 8) bytes k)
  have hl : (wordSlice (W / 8) bytes k).length ≤ W / 8 := by
    rw [wordSlice_length]; exact Nat.min_le_left _ _
  have h2 : 256 ^ (W / 8) = 2 ^ W := by
    rw [show 256 = 2 ^ 8 from rfl, ← Nat.pow_mul]; congr 1; omega
  exact Nat.lt_of_lt_of_le h (h2 ▸ Nat.pow_le_pow_right (by decide) hl)

end Sys2Proof.Machine
end

