-- ==== Sys2Proof/Laws/Config.lean ====
section
/-! SUPPORT. The open parameters are legal, whatever they are (00_scope.md R5). -/

namespace Sys2Proof

theorem Config.params_legal : Config.params.legal = true := by
  have hn : 1 ≤ Config.stripeCount.toNat := by
    unfold Config.stripeCount
    split
    · decide
    · next h =>
      rcases Nat.eq_zero_or_pos Config.openStripes.toNat with h0 | h0
      · exact absurd (BitVec.eq_of_toNat_eq (by simpa using h0)) h
      · exact h0
  have hb : 8 ≤ Config.blockSize.toNat ∧ Config.blockSize.toNat % 8 = 0 := by
    have hlt := Config.openBlock.isLt
    have e : (BitVec.ofNat 64 (Config.openBlock.toNat / 8 * 8)).toNat = Config.openBlock.toNat / 8 * 8 := by
      rw [BitVec.toNat_ofNat]; exact Nat.mod_eq_of_lt (by omega)
    unfold Config.blockSize
    dsimp only
    split
    · decide
    · next h =>
      rw [e]
      refine ⟨?_, by omega⟩
      rcases Nat.eq_zero_or_pos (Config.openBlock.toNat / 8 * 8) with h0 | h0
      · exact absurd (BitVec.eq_of_toNat_eq (by rw [e, h0]; rfl)) h
      · omega
  unfold Params.legal Config.params
  rw [decide_eq_true hn, decide_eq_true hb.1, decide_eq_true hb.2]; rfl

end Sys2Proof
end

