-- ==== Sys2Proof/Laws/Decode.lean ====
section
/-! SUPPORT. The fields of a descriptor (30_encoding.md R50) and what the decoder can answer. -/

namespace Sys2Proof

theorem descriptor_toNat (op : BitVec 8) (addr len : Word64) :
    (descriptor op addr len).toNat = op.toNat * 2 ^ 128 + (addr.toNat * 2 ^ 64 + len.toNat) := by
  have h : (descriptor op addr len).toNat = (op ++ (addr ++ len)).toNat := rfl
  have h2 : (addr ++ len).toNat = addr.toNat * 2 ^ 64 + len.toNat := by
    rw [BitVec.toNat_append, ← Nat.shiftLeft_add_eq_or_of_lt len.isLt, Nat.shiftLeft_eq]
  rw [h, BitVec.toNat_append, ← Nat.shiftLeft_add_eq_or_of_lt (addr ++ len).isLt, Nat.shiftLeft_eq, h2]

theorem opField_toNat (d : Descriptor) : (opField d).toNat = d.toNat / 2 ^ 128 := by
  have := d.isLt
  rw [opField, BitVec.extractLsb'_toNat, Nat.shiftRight_eq_div_pow]
  exact Nat.mod_eq_of_lt (by omega)

theorem addrField_toNat (d : Descriptor) : (addrField d).toNat = d.toNat / 2 ^ 64 % 2 ^ 64 := by
  rw [addrField, BitVec.extractLsb'_toNat, Nat.shiftRight_eq_div_pow]

theorem lenField_toNat (d : Descriptor) : (lenField d).toNat = d.toNat % 2 ^ 64 := by
  rw [lenField, BitVec.extractLsb'_toNat, Nat.shiftRight_zero]

theorem opField_descriptor (op : BitVec 8) (addr len : Word64) : opField (descriptor op addr len) = op := by
  apply BitVec.eq_of_toNat_eq
  have h1 := addr.isLt
  have h2 := len.isLt
  rw [opField_toNat, descriptor_toNat]; omega

theorem addrField_descriptor (op : BitVec 8) (addr len : Word64) :
    addrField (descriptor op addr len) = addr := by
  apply BitVec.eq_of_toNat_eq
  have h1 := addr.isLt
  have h2 := len.isLt
  rw [addrField_toNat, descriptor_toNat]; omega

theorem lenField_descriptor (op : BitVec 8) (addr len : Word64) : lenField (descriptor op addr len) = len := by
  apply BitVec.eq_of_toNat_eq
  have h1 := addr.isLt
  have h2 := len.isLt
  rw [lenField_toNat, descriptor_toNat]; omega

/-- A descriptor is its three fields. -/
theorem descriptor_fields (d : Descriptor) : descriptor (opField d) (addrField d) (lenField d) = d := by
  apply BitVec.eq_of_toNat_eq
  rw [descriptor_toNat, opField_toNat, addrField_toNat, lenField_toNat]
  omega

/-- Everything the decoder answers (30_encoding.md R56). -/
theorem decode_cases (d : Descriptor) :
    (opField d = 0x01#8 ∧ decode d = .ok (.f64 (addrField d) (lenField d))) ∨
    (opField d = 0x02#8 ∧ decode d = .ok (.f128 (addrField d) (lenField d))) ∨
    (opField d = 0x03#8 ∧ decode d = .ok .sclr) ∨
    (opField d = 0x04#8 ∧ decode d = .ok (.supd (addrField d) (lenField d))) ∨
    (opField d ≠ 0x01#8 ∧ opField d ≠ 0x02#8 ∧ opField d ≠ 0x03#8 ∧ opField d ≠ 0x04#8 ∧
      decode d = .error .illegalOpcode) := by
  unfold decode
  by_cases h1 : opField d = 0x01#8
  · simp [h1]
  by_cases h2 : opField d = 0x02#8
  · simp [h2]
  by_cases h3 : opField d = 0x03#8
  · simp [h3]
  by_cases h4 : opField d = 0x04#8
  · simp [h4]
  · simp [h1, h2, h3, h4]

end Sys2Proof
end

