-- ==== Sys2Proof/Laws/State.lean ====
section
/-! SUPPORT. The record updates of State, field by field, so that no later proof unfolds one. -/

namespace Sys2Proof.Machine

variable (s : State)

@[simp] theorem State.setRes64_res64 (v : Word64) : (s.setRes64 v).res64 = Reg.holding v := rfl
@[simp] theorem State.setRes64_res128Hi (v : Word64) : (s.setRes64 v).res128Hi = s.res128Hi := rfl
@[simp] theorem State.setRes64_res128Lo (v : Word64) : (s.setRes64 v).res128Lo = s.res128Lo := rfl
@[simp] theorem State.setRes64_stripes (v : Word64) : (s.setRes64 v).stripes = s.stripes := rfl
@[simp] theorem State.setRes64_cfgN (v : Word64) : (s.setRes64 v).cfgN = s.cfgN := rfl
@[simp] theorem State.setRes64_cfgBs (v : Word64) : (s.setRes64 v).cfgBs = s.cfgBs := rfl
@[simp] theorem State.setRes64_mem (v : Word64) : (s.setRes64 v).mem = s.mem := rfl
@[simp] theorem State.setRes64_withheld (v : Word64) : (s.setRes64 v).withheld = s.withheld := rfl
@[simp] theorem State.setRes64_pending (v : Word64) : (s.setRes64 v).pending = s.pending := rfl
@[simp] theorem State.setRes64_output (v : Word64) : (s.setRes64 v).output = s.output := rfl
@[simp] theorem State.setRes64_stripeCount (v : Word64) : (s.setRes64 v).stripeCount = s.stripeCount := rfl
@[simp] theorem State.setRes64_withholds (v : Word64) (a : Nat) : (s.setRes64 v).withholds a = s.withholds a := rfl
@[simp] theorem State.setRes64_readByte (v : Word64) (a : Nat) : (s.setRes64 v).readByte a = s.readByte a := rfl

@[simp] theorem State.setRes128_res64 (p : Pair 64) : (s.setRes128 p).res64 = s.res64 := rfl
@[simp] theorem State.setRes128_res128Hi (p : Pair 64) : (s.setRes128 p).res128Hi = Reg.holding p.hi := rfl
@[simp] theorem State.setRes128_res128Lo (p : Pair 64) : (s.setRes128 p).res128Lo = Reg.holding p.lo := rfl
@[simp] theorem State.setRes128_stripes (p : Pair 64) : (s.setRes128 p).stripes = s.stripes := rfl
@[simp] theorem State.setRes128_cfgN (p : Pair 64) : (s.setRes128 p).cfgN = s.cfgN := rfl
@[simp] theorem State.setRes128_cfgBs (p : Pair 64) : (s.setRes128 p).cfgBs = s.cfgBs := rfl
@[simp] theorem State.setRes128_mem (p : Pair 64) : (s.setRes128 p).mem = s.mem := rfl
@[simp] theorem State.setRes128_withheld (p : Pair 64) : (s.setRes128 p).withheld = s.withheld := rfl
@[simp] theorem State.setRes128_pending (p : Pair 64) : (s.setRes128 p).pending = s.pending := rfl
@[simp] theorem State.setRes128_output (p : Pair 64) : (s.setRes128 p).output = s.output := rfl
@[simp] theorem State.setRes128_stripeCount (p : Pair 64) : (s.setRes128 p).stripeCount = s.stripeCount := rfl
@[simp] theorem State.setRes128_withholds (p : Pair 64) (a : Nat) : (s.setRes128 p).withholds a = s.withholds a := rfl
@[simp] theorem State.setRes128_readByte (p : Pair 64) (a : Nat) : (s.setRes128 p).readByte a = s.readByte a := rfl

@[simp] theorem State.setStripes_res64 (S : List Stripe) : (s.setStripes S).res64 = s.res64 := rfl
@[simp] theorem State.setStripes_res128Hi (S : List Stripe) : (s.setStripes S).res128Hi = s.res128Hi := rfl
@[simp] theorem State.setStripes_res128Lo (S : List Stripe) : (s.setStripes S).res128Lo = s.res128Lo := rfl
@[simp] theorem State.setStripes_stripes (S : List Stripe) : (s.setStripes S).stripes = S := rfl
@[simp] theorem State.setStripes_cfgN (S : List Stripe) : (s.setStripes S).cfgN = s.cfgN := rfl
@[simp] theorem State.setStripes_cfgBs (S : List Stripe) : (s.setStripes S).cfgBs = s.cfgBs := rfl
@[simp] theorem State.setStripes_mem (S : List Stripe) : (s.setStripes S).mem = s.mem := rfl
@[simp] theorem State.setStripes_withheld (S : List Stripe) : (s.setStripes S).withheld = s.withheld := rfl
@[simp] theorem State.setStripes_pending (S : List Stripe) : (s.setStripes S).pending = s.pending := rfl
@[simp] theorem State.setStripes_output (S : List Stripe) : (s.setStripes S).output = s.output := rfl
@[simp] theorem State.setStripes_stripeCount (S : List Stripe) : (s.setStripes S).stripeCount = s.stripeCount := rfl
@[simp] theorem State.setStripes_withholds (S : List Stripe) (a : Nat) : (s.setStripes S).withholds a = s.withholds a := rfl
@[simp] theorem State.setStripes_readByte (S : List Stripe) (a : Nat) : (s.setStripes S).readByte a = s.readByte a := rfl

@[simp] theorem State.clearStripes_res64 : (s.clearStripes).res64 = s.res64 := rfl
@[simp] theorem State.clearStripes_res128Hi : (s.clearStripes).res128Hi = s.res128Hi := rfl
@[simp] theorem State.clearStripes_res128Lo : (s.clearStripes).res128Lo = s.res128Lo := rfl
@[simp] theorem State.clearStripes_stripes : (s.clearStripes).stripes = List.replicate s.stripeCount (Stripe.holding (Pair.zero 64)) := rfl
@[simp] theorem State.clearStripes_cfgN : (s.clearStripes).cfgN = s.cfgN := rfl
@[simp] theorem State.clearStripes_cfgBs : (s.clearStripes).cfgBs = s.cfgBs := rfl
@[simp] theorem State.clearStripes_mem : (s.clearStripes).mem = s.mem := rfl
@[simp] theorem State.clearStripes_withheld : (s.clearStripes).withheld = s.withheld := rfl
@[simp] theorem State.clearStripes_pending : (s.clearStripes).pending = s.pending := rfl
@[simp] theorem State.clearStripes_output : (s.clearStripes).output = s.output := rfl
@[simp] theorem State.clearStripes_stripeCount : (s.clearStripes).stripeCount = s.stripeCount := rfl
@[simp] theorem State.clearStripes_withholds (a : Nat) : (s.clearStripes).withholds a = s.withholds a := rfl
@[simp] theorem State.clearStripes_readByte (a : Nat) : (s.clearStripes).readByte a = s.readByte a := rfl

@[simp] theorem State.resetEngine_res64 : (s.resetEngine).res64 = Reg.unspecified := rfl
@[simp] theorem State.resetEngine_res128Hi : (s.resetEngine).res128Hi = Reg.unspecified := rfl
@[simp] theorem State.resetEngine_res128Lo : (s.resetEngine).res128Lo = Reg.unspecified := rfl
@[simp] theorem State.resetEngine_stripes : (s.resetEngine).stripes = List.replicate s.stripeCount Stripe.unspecified := rfl
@[simp] theorem State.resetEngine_cfgN : (s.resetEngine).cfgN = s.cfgN := rfl
@[simp] theorem State.resetEngine_cfgBs : (s.resetEngine).cfgBs = s.cfgBs := rfl
@[simp] theorem State.resetEngine_mem : (s.resetEngine).mem = s.mem := rfl
@[simp] theorem State.resetEngine_withheld : (s.resetEngine).withheld = s.withheld := rfl
@[simp] theorem State.resetEngine_pending : (s.resetEngine).pending = s.pending := rfl
@[simp] theorem State.resetEngine_output : (s.resetEngine).output = s.output := rfl
@[simp] theorem State.resetEngine_stripeCount : (s.resetEngine).stripeCount = s.stripeCount := rfl
@[simp] theorem State.resetEngine_withholds (a : Nat) : (s.resetEngine).withholds a = s.withholds a := rfl
@[simp] theorem State.resetEngine_readByte (a : Nat) : (s.resetEngine).readByte a = s.readByte a := rfl

@[simp] theorem State.withDescriptor_res64 (d : Descriptor) : (s.withDescriptor d).res64 = s.res64 := rfl
@[simp] theorem State.withDescriptor_res128Hi (d : Descriptor) : (s.withDescriptor d).res128Hi = s.res128Hi := rfl
@[simp] theorem State.withDescriptor_res128Lo (d : Descriptor) : (s.withDescriptor d).res128Lo = s.res128Lo := rfl
@[simp] theorem State.withDescriptor_stripes (d : Descriptor) : (s.withDescriptor d).stripes = s.stripes := rfl
@[simp] theorem State.withDescriptor_cfgN (d : Descriptor) : (s.withDescriptor d).cfgN = s.cfgN := rfl
@[simp] theorem State.withDescriptor_cfgBs (d : Descriptor) : (s.withDescriptor d).cfgBs = s.cfgBs := rfl
@[simp] theorem State.withDescriptor_mem (d : Descriptor) : (s.withDescriptor d).mem = s.mem := rfl
@[simp] theorem State.withDescriptor_withheld (d : Descriptor) : (s.withDescriptor d).withheld = s.withheld := rfl
@[simp] theorem State.withDescriptor_pending (d : Descriptor) : (s.withDescriptor d).pending = .command d :: s.pending := rfl
@[simp] theorem State.withDescriptor_output (d : Descriptor) : (s.withDescriptor d).output = s.output := rfl
@[simp] theorem State.withDescriptor_stripeCount (d : Descriptor) : (s.withDescriptor d).stripeCount = s.stripeCount := rfl
@[simp] theorem State.withDescriptor_withholds (d : Descriptor) (a : Nat) : (s.withDescriptor d).withholds a = s.withholds a := rfl
@[simp] theorem State.withDescriptor_readByte (d : Descriptor) (a : Nat) : (s.withDescriptor d).readByte a = s.readByte a := rfl

/-- A host write touches memory only. -/
theorem State.hostWrite_eq (a : Nat) (b : Byte) : s.hostWrite a b = { s with mem := (s.hostWrite a b).mem } := by
  unfold State.hostWrite; split <;> rfl

@[simp] theorem State.hostWrite_res64 (a : Nat) (b : Byte) : (s.hostWrite a b).res64 = s.res64 := by
  rw [State.hostWrite_eq]
@[simp] theorem State.hostWrite_res128Hi (a : Nat) (b : Byte) : (s.hostWrite a b).res128Hi = s.res128Hi := by
  rw [State.hostWrite_eq]
@[simp] theorem State.hostWrite_res128Lo (a : Nat) (b : Byte) : (s.hostWrite a b).res128Lo = s.res128Lo := by
  rw [State.hostWrite_eq]
@[simp] theorem State.hostWrite_stripes (a : Nat) (b : Byte) : (s.hostWrite a b).stripes = s.stripes := by
  rw [State.hostWrite_eq]
@[simp] theorem State.hostWrite_cfgN (a : Nat) (b : Byte) : (s.hostWrite a b).cfgN = s.cfgN := by
  rw [State.hostWrite_eq]
@[simp] theorem State.hostWrite_cfgBs (a : Nat) (b : Byte) : (s.hostWrite a b).cfgBs = s.cfgBs := by
  rw [State.hostWrite_eq]
@[simp] theorem State.hostWrite_withheld (a : Nat) (b : Byte) : (s.hostWrite a b).withheld = s.withheld := by
  rw [State.hostWrite_eq]
@[simp] theorem State.hostWrite_pending (a : Nat) (b : Byte) : (s.hostWrite a b).pending = s.pending := by
  rw [State.hostWrite_eq]
@[simp] theorem State.hostWrite_output (a : Nat) (b : Byte) : (s.hostWrite a b).output = s.output := by
  rw [State.hostWrite_eq]
@[simp] theorem State.hostWrite_stripeCount (a : Nat) (b : Byte) : (s.hostWrite a b).stripeCount = s.stripeCount := by
  rw [State.hostWrite_eq]; rfl
@[simp] theorem State.hostWrite_withholds (a : Nat) (b : Byte) (x : Nat) :
    (s.hostWrite a b).withholds x = s.withholds x := by
  rw [State.hostWrite_eq]; rfl

@[simp] theorem Reg.read?_holding (v : Word64) : (Reg.holding v).read? = some v := rfl
@[simp] theorem Reg.read?_unspecified : Reg.unspecified.read? = none := rfl
@[simp] theorem Reg.specified_holding (v : Word64) : (Reg.holding v).specified = true := rfl
@[simp] theorem Reg.specified_unspecified : Reg.unspecified.specified = false := rfl
@[simp] theorem Reg.value_holding (v : Word64) : (Reg.holding v).value = v := rfl
@[simp] theorem Stripe.read?_holding (p : Pair 64) : (Stripe.holding p).read? = some p := rfl
@[simp] theorem Stripe.read?_unspecified : Stripe.unspecified.read? = none := rfl
@[simp] theorem Stripe.hi_holding (p : Pair 64) : (Stripe.holding p).hi = Reg.holding p.hi := rfl
@[simp] theorem Stripe.lo_holding (p : Pair 64) : (Stripe.holding p).lo = Reg.holding p.lo := rfl
@[simp] theorem Stripe.hi_unspecified : Stripe.unspecified.hi = Reg.unspecified := rfl
@[simp] theorem Stripe.lo_unspecified : Stripe.unspecified.lo = Reg.unspecified := rfl

/-- A register is read exactly while it is specified. -/
theorem Reg.read?_eq_some (r : Reg) (v : Word64) : r.read? = some v ↔ r.specified = true ∧ r.value = v := by
  unfold Reg.read?; split <;> simp_all

theorem Reg.read?_eq_none (r : Reg) : r.read? = none ↔ r.specified = false := by
  unfold Reg.read?; split <;> simp_all

/-- A stripe accumulator is read exactly while both its registers are specified. -/
theorem Stripe.read?_eq_some (st : Stripe) (p : Pair 64) :
    st.read? = some p ↔ st.hi.specified = true ∧ st.lo.specified = true ∧ p = ⟨st.hi.value, st.lo.value⟩ := by
  cases p; cases hh : st.hi.specified <;> cases hl : st.lo.specified <;>
    simp [Stripe.read?, Reg.read?, hh, hl, eq_comm]

theorem Stripe.read?_eq_none (st : Stripe) :
    st.read? = none ↔ st.hi.specified = false ∨ st.lo.specified = false := by
  cases hh : st.hi.specified <;> cases hl : st.lo.specified <;> simp [Stripe.read?, Reg.read?, hh, hl]

end Sys2Proof.Machine
end

