-- ==== Sys2Proof/Laws/Stripes.lean ====
section
/-! SUPPORT. The stripe array: what dealing words round-robin can answer, stripe by stripe (44_striped128.md). -/

namespace Sys2Proof.Machine

/-- The words stripe `i` receives of words dealt from position `w` on. -/
def dealt (n i : Nat) : Nat → List Word64 → List Word64
  | _, [] => []
  | w, x :: xs => if w % n = i then x :: dealt n i (w + 1) xs else dealt n i (w + 1) xs

theorem dealt_cons (n i w : Nat) (x : Word64) (xs : List Word64) :
    dealt n i w (x :: xs) = if w % n = i then x :: dealt n i (w + 1) xs else dealt n i (w + 1) xs := rfl

theorem dealt_append (n i w : Nat) (xs ys : List Word64) :
    dealt n i w (xs ++ ys) = dealt n i w xs ++ dealt n i (w + xs.length) ys := by
  induction xs generalizing w with
  | nil => rfl
  | cons x xs ih =>
    rw [List.cons_append, dealt_cons, dealt_cons, ih, show w + 1 + xs.length = w + (x :: xs).length by simp; omega]
    split <;> rfl

/-- Only the position modulo `n` matters. -/
theorem dealt_mod (n i w : Nat) (xs : List Word64) : dealt n i (w % n) xs = dealt n i w xs := by
  induction xs generalizing w with
  | nil => rfl
  | cons x xs ih =>
    rw [dealt_cons, dealt_cons, Nat.mod_mod, ← ih (w % n + 1), ← ih (w + 1), Nat.mod_add_mod]

/-- A stripe accumulator after some words: untouched by none (44_striped128.md R116). -/
def Stripe.absorb (st : Stripe) (ws : List Word64) : Stripe :=
  if ws = [] then st else Stripe.holding (foldFrom ⟨st.hi.value, st.lo.value⟩ ws)

/-- Both registers of a stripe hold values. -/
def Stripe.isSpecified (st : Stripe) : Bool := st.hi.specified && st.lo.specified

theorem Stripe.read?_of_specified {st : Stripe} (h : st.isSpecified = true) :
    st.read? = some ⟨st.hi.value, st.lo.value⟩ := by
  rw [Stripe.isSpecified, Bool.and_eq_true] at h
  exact (Stripe.read?_eq_some ..).mpr ⟨h.1, h.2, rfl⟩

theorem Stripe.read?_of_unspecified {st : Stripe} (h : st.isSpecified = false) : st.read? = none := by
  rw [Stripe.isSpecified, Bool.and_eq_false_iff] at h
  exact (Stripe.read?_eq_none ..).mpr h

@[simp] theorem Stripe.isSpecified_holding (p : Pair 64) : (Stripe.holding p).isSpecified = true := rfl
@[simp] theorem Stripe.absorb_nil (st : Stripe) : st.absorb [] = st := rfl

@[simp] theorem Stripe.absorb_holding (p : Pair 64) (ws : List Word64) :
    (Stripe.holding p).absorb ws = Stripe.holding (foldFrom p ws) := by
  unfold Stripe.absorb
  split
  · next h => subst h; rfl
  · rfl

theorem Stripe.absorb_cons (st : Stripe) (x : Word64) (xs : List Word64) :
    st.absorb (x :: xs) = (Stripe.holding (acc ⟨st.hi.value, st.lo.value⟩ x)).absorb xs := by
  rw [Stripe.absorb_holding]; rfl

/-- Words in two parts are absorbed one part after the other. -/
theorem Stripe.absorb_append (st : Stripe) (xs ys : List Word64) : st.absorb (xs ++ ys) = (st.absorb xs).absorb ys := by
  cases xs with
  | nil => rfl
  | cons x xs => simp [Stripe.absorb_cons, foldFrom_append]

/-- A stripe that holds a value takes a word; one that does not faults (10_state.md R24). -/
theorem accumulateStripe_eq (S : List Stripe) (i : Nat) (x : Word64) :
    accumulateStripe S i x =
      if (S.getD i Stripe.unspecified).isSpecified then
        .next (S.set i ((S.getD i Stripe.unspecified).absorb [x]))
      else .fault .unspecifiedRegisterRead := by
  unfold accumulateStripe
  cases h : (S.getD i Stripe.unspecified).isSpecified with
  | true => rw [Stripe.read?_of_specified h]; rfl
  | false => rw [Stripe.read?_of_unspecified h]; rfl

/-- Dealing words where every stripe that receives one holds a value: each stripe absorbs its own words
(44_striped128.md R117). -/
theorem dealWords_next {n : Nat} (hn : 0 < n) (xs : List Word64) (w : Nat) (S : List Stripe) (hlen : S.length = n)
    (hspec : ∀ i (h : i < S.length), dealt n i w xs ≠ [] → S[i].isSpecified = true) :
    ∃ S', dealWords n w xs S = .next S' ∧ ∃ hl : S'.length = S.length,
      ∀ i (h : i < S.length), S'[i] = S[i].absorb (dealt n i w xs) := by
  induction xs generalizing w S with
  | nil => exact ⟨S, rfl, rfl, fun _ _ => rfl⟩
  | cons x xs ih =>
    have hw : w % n < S.length := by rw [hlen]; exact Nat.mod_lt w hn
    have hs : S[w % n].isSpecified = true := hspec _ hw (by simp [dealt])
    have hD : S.getD (w % n) Stripe.unspecified = S[w % n] := List.getD_eq_getElem _ _ hw
    have hstep : accumulateStripe S (w % n) x = .next (S.set (w % n) (S[w % n].absorb [x])) := by
      rw [accumulateStripe_eq, hD, if_pos hs]
    obtain ⟨S', h1, hl, h2⟩ := ih (w + 1) (S.set (w % n) (S[w % n].absorb [x])) (by simpa using hlen) (by
      intro i hi hne
      rw [List.getElem_set]
      split
      · rfl
      · next hne' =>
        refine hspec i (by simpa using hi) ?_
        simpa [dealt, hne'] using hne)
    refine ⟨S', ?_, by simpa using hl, fun i hi => ?_⟩
    · rw [dealWords, hstep, andThen_next, h1]
    · rw [h2 i (by simpa using hi), List.getElem_set]
      rw [dealt_cons]
      by_cases hi' : w % n = i
      · subst hi'; simp only [if_true, Stripe.absorb_cons, Stripe.absorb_nil]
      · simp only [hi', if_false]

/-- Dealing a word to a stripe without a value faults (10_state.md R24). -/
theorem dealWords_fault {n : Nat} (xs : List Word64) (w : Nat) (S : List Stripe) {i : Nat}
    (hrec : dealt n i w xs ≠ []) (hspec : (S.getD i Stripe.unspecified).isSpecified = false) :
    dealWords n w xs S = .fault .unspecifiedRegisterRead := by
  induction xs generalizing w S with
  | nil => exact absurd rfl hrec
  | cons x xs ih =>
    rw [dealWords, accumulateStripe_eq]
    by_cases hi : w % n = i
    · rw [hi, hspec]; rfl
    · have hrec' : dealt n i (w + 1) xs ≠ [] := by simpa [dealt, hi] using hrec
      split
      · exact ih (w + 1) _ hrec' (by simpa [List.getD, List.getElem?_set_ne hi] using hspec)
      · rfl

/-- Dealing words answers a next array or the fault, nothing else. -/
theorem dealWords_cases (n : Nat) (xs : List Word64) (w : Nat) (S : List Stripe) :
    (∃ S', dealWords n w xs S = .next S' ∧ S'.length = S.length) ∨
    dealWords n w xs S = .fault .unspecifiedRegisterRead := by
  induction xs generalizing w S with
  | nil => exact .inl ⟨S, rfl, rfl⟩
  | cons x xs ih =>
    rw [dealWords, accumulateStripe_eq]
    split
    · rw [andThen_next]
      rcases ih (w + 1) (S.set (w % n) ((S.getD (w % n) Stripe.unspecified).absorb [x])) with ⟨S', h1, h2⟩ | h
      · exact .inl ⟨S', h1, by simpa using h2⟩
      · exact .inr h
    · exact .inr rfl

/-- Dealing the words of a concatenation goes on at the position reached. -/
theorem dealWords_append (n : Nat) (xs ys : List Word64) (w : Nat) (S : List Stripe) :
    dealWords n w (xs ++ ys) S = andThen (dealWords n w xs S) (dealWords n (w + xs.length) ys) := by
  induction xs generalizing w S with
  | nil => rfl
  | cons x xs ih =>
    simp only [List.cons_append, dealWords]
    cases accumulateStripe S (w % n) x with
    | next S' => rw [andThen_next, andThen_next, ih]; congr 2; simp only [List.length_cons]; omega
    | fault r => rfl
    | refused r => rfl

end Sys2Proof.Machine
end

