-- ==== Sys2Proof/Laws/Lanes.lean ====
section
/-! SUPPORT. The lane list of 44_striped128.md R117 holds the words that dealing round-robin gives a stripe. -/

namespace Sys2Proof.Machine

theorem laneCount_zero {n i : Nat} (hi : i < n) : laneCount n i 0 = 0 := by
  unfold laneCount; exact Nat.div_eq_of_lt (by omega)

theorem laneCount_succ {n i : Nat} (hi : i < n) (m : Nat) :
    laneCount n i (m + 1) = laneCount n i m + if m % n = i then 1 else 0 := by
  have hn : 0 < n := by omega
  unfold laneCount
  rw [show m + 1 + n - 1 - i = (m + n - 1 - i) + 1 by omega, Nat.succ_div]
  congr 1
  have hiff : n ∣ m + n - 1 - i + 1 ↔ m % n = i := by
    rw [show m + n - 1 - i + 1 = m + n - i by omega]
    have hm := Nat.div_add_mod m n
    have hr := Nat.mod_lt m hn
    constructor
    · rintro ⟨c, hc⟩
      have hle : m / n ≤ c := by
        by_contra hlt
        have : n * (c + 1) ≤ n * (m / n) := Nat.mul_le_mul_left n (by omega)
        rw [Nat.mul_add] at this; omega
      obtain ⟨d, rfl⟩ := Nat.exists_eq_add_of_le hle
      rw [Nat.mul_add] at hc
      have hd : d = 1 := by
        rcases Nat.lt_or_ge d 1 with h | h
        · have : d = 0 := by omega
          subst this; omega
        · by_contra h1
          have : n * 2 ≤ n * d := Nat.mul_le_mul_left n (by omega)
          omega
      subst hd; omega
    · intro h
      exact ⟨m / n + 1, by rw [Nat.mul_add]; omega⟩
  simp only [hiff]

/-- A lane's last position lies inside the words. -/
theorem lane_position_lt {n i : Nat} (hi : i < n) (m j : Nat) (hj : j < laneCount n i m) : i + n * j < m := by
  unfold laneCount at hj
  rw [Nat.lt_iff_add_one_le, Nat.le_div_iff_mul_le (by omega), Nat.add_mul, Nat.mul_comm j n] at hj
  omega

theorem laneCount_of_mod {n i : Nat} (hi : i < n) {m : Nat} (hm : m % n = i) : i + n * laneCount n i m = m := by
  have h := Nat.div_add_mod m n
  have : laneCount n i m = m / n := by
    unfold laneCount
    have e : m + n - 1 - i = n * (m / n) + (n - 1) := by omega
    rw [e, Nat.mul_add_div (by omega), Nat.div_eq_of_lt (by omega : n - 1 < n), Nat.add_zero]
  rw [this]; omega

theorem lane_eq_dealt {n i : Nat} (hi : i < n) (ws : List Word64) : lane n i ws = dealt n i 0 ws := by
  induction ws using List.reverseRecOn with
  | nil => simp [lane, laneCount_zero hi, dealt]
  | append_singleton ws x ih =>
    rw [dealt_append, ← ih, Nat.zero_add, dealt_cons]
    unfold lane
    rw [List.length_append, List.length_singleton, laneCount_succ hi]
    have hpre : ∀ j ∈ List.range (laneCount n i ws.length),
        (ws ++ [x]).getD (i + n * j) 0#64 = ws.getD (i + n * j) 0#64 := by
      intro j hj
      have := lane_position_lt hi ws.length j (List.mem_range.mp hj)
      simp [List.getD, List.getElem?_append_left this]
    split
    · next hm =>
      rw [List.range_succ, List.map_append, List.map_congr_left hpre]
      congr 1
      simp [laneCount_of_mod hi hm, dealt]
    · rw [Nat.add_zero, List.map_congr_left hpre]
      simp [dealt]

/-- A stripe receives a word exactly when its index is below the word count (44_striped128.md R115). -/
theorem dealt_ne_nil {n i : Nat} (hi : i < n) (ws : List Word64) : dealt n i 0 ws ≠ [] ↔ i < ws.length := by
  rw [← lane_eq_dealt hi, ← List.length_pos_iff]
  unfold lane
  rw [List.length_map, List.length_range]
  constructor
  · intro h; have := lane_position_lt hi ws.length 0 h; omega
  · intro h
    unfold laneCount
    exact Nat.div_pos (by omega) (by omega)

end Sys2Proof.Machine
end

