-- ==== Sys2Proof/Laws/Memory.lean ====
section
/-! SUPPORT. The laws of memory: read after write, the canonical form, and what a read of several bytes or of a
command's buffer can answer. -/

namespace Sys2Proof.Machine

/-! Read after write. -/

theorem Memory.lookup_write_same (m : List Host.Cell) (a : Nat) (b : Byte) :
    Memory.lookup (Memory.write m a b) a = some b := by
  induction m with
  | nil => simp [Memory.write, Memory.lookup]
  | cons c cs ih =>
    unfold Memory.write
    split
    · simp [Memory.lookup]
    · split
      · simp [Memory.lookup]
      · have : c.1 ≠ a := by omega
        simp [Memory.lookup, this, ih]

theorem Memory.lookup_write_other (m : List Host.Cell) {a x : Nat} (b : Byte) (h : x ≠ a) :
    Memory.lookup (Memory.write m a b) x = Memory.lookup m x := by
  have h' : a ≠ x := fun e => h e.symm
  induction m with
  | nil => simp [Memory.write, Memory.lookup, h']
  | cons c cs ih =>
    unfold Memory.write
    split
    · simp [Memory.lookup, h']
    · split
      · next heq => subst heq; simp [Memory.lookup, h']
      · simp [Memory.lookup, ih]

/-! The canonical form. -/

theorem Memory.risesFrom_write (m : List Host.Cell) (least a : Nat) (b : Byte) (hm : Memory.risesFrom least m = true)
    (hl : least ≤ a) (ha : a < 2 ^ 64) : Memory.risesFrom least (Memory.write m a b) = true := by
  induction m generalizing least with
  | nil => simp [Memory.write, Memory.risesFrom]; omega
  | cons c cs ih =>
    simp only [Memory.risesFrom, Bool.and_eq_true, decide_eq_true_eq] at hm
    obtain ⟨⟨h1, h2⟩, h3⟩ := hm
    unfold Memory.write
    split
    · simp only [Memory.risesFrom, Bool.and_eq_true, decide_eq_true_eq]
      exact ⟨⟨hl, ha⟩, ⟨by omega, h2⟩, h3⟩
    · split
      · next heq =>
        subst heq
        simp only [Memory.risesFrom, Bool.and_eq_true, decide_eq_true_eq]
        exact ⟨⟨hl, ha⟩, h3⟩
      · simp only [Memory.risesFrom, Bool.and_eq_true, decide_eq_true_eq]
        exact ⟨⟨h1, h2⟩, ih (c.1 + 1) h3 (by omega)⟩

/-- A write keeps the canonical form. -/
theorem Memory.wf_write (m : List Host.Cell) (a : Nat) (b : Byte) (hm : Memory.wf m = true) (ha : a < 2 ^ 64) :
    Memory.wf (Memory.write m a b) = true :=
  Memory.risesFrom_write m 0 a b hm (Nat.zero_le a) ha

/-- A host write keeps the canonical form. -/
theorem State.hostWrite_wf (s : State) (a : Nat) (b : Byte) (hm : Memory.wf s.mem = true) (ha : a < 2 ^ 64) :
    Memory.wf (s.hostWrite a b).mem = true := by
  unfold State.hostWrite
  split
  · exact hm
  · exact Memory.wf_write s.mem a b hm ha

/-! The read of one byte. -/

/-- What a host write does to the read of any byte. -/
theorem State.readByte_hostWrite (s : State) (a x : Nat) (b : Byte) :
    (s.hostWrite a b).readByte x = if s.withholds a = false ∧ x = a then some b else s.readByte x := by
  unfold State.hostWrite
  cases ha : s.withholds a with
  | true => simp
  | false =>
    simp only [Bool.false_eq_true, ↓reduceIte, true_and]
    by_cases hx : x = a
    · subst hx
      rw [if_pos rfl]
      change (if s.withholds x then none else Memory.lookup (Memory.write s.mem x b) x) = some b
      rw [ha, Memory.lookup_write_same]; simp
    · rw [if_neg hx]
      change (if s.withholds x then none else Memory.lookup (Memory.write s.mem a b) x) = s.readByte x
      rw [Memory.lookup_write_other s.mem b hx]; rfl

/-! The read of several bytes. -/

theorem State.readBytes_succ (s : State) (a n : Nat) :
    s.readBytes a (n + 1) =
      match s.readByte a with
      | none => none
      | some b => (s.readBytes (a + 1) n).map (b :: ·) := rfl

/-- Everything a read of several bytes answers with a value. -/
theorem State.readBytes_eq_some (s : State) (a n : Nat) (bytes : List Byte) :
    s.readBytes a n = some bytes ↔ bytes.length = n ∧ s.Holds a bytes := by
  induction n generalizing a bytes with
  | zero =>
    simp only [State.readBytes, Option.some.injEq]
    constructor
    · rintro rfl; exact ⟨rfl, fun i h => absurd h (by simp)⟩
    · rintro ⟨h, -⟩; exact (List.length_eq_zero_iff.mp h).symm
  | succ n ih =>
    rw [State.readBytes_succ]
    cases bytes with
    | nil => cases s.readByte a <;> simp
    | cons b bs =>
      have key : s.Holds a (b :: bs) ↔ s.readByte a = some b ∧ s.Holds (a + 1) bs := by
        constructor
        · intro h
          refine ⟨h 0 (Nat.succ_pos _), fun i hi => ?_⟩
          have := h (i + 1) (by simpa using hi)
          rw [show a + 1 + i = a + (i + 1) by omega]; simpa using this
        · rintro ⟨h0, h1⟩ i hi
          cases i with
          | zero => simpa using h0
          | succ i =>
            have := h1 i (by simpa using hi)
            rw [show a + (i + 1) = a + 1 + i by omega]; simpa using this
      rw [key]
      cases hb : s.readByte a with
      | none => simp
      | some x =>
        simp only [Option.map_eq_some_iff, List.cons.injEq, ih, List.length_cons, Nat.add_right_cancel_iff,
          Option.some.injEq]
        constructor
        · rintro ⟨y, hy, rfl, rfl⟩; exact ⟨hy.1, rfl, hy.2⟩
        · rintro ⟨h1, rfl, h2⟩; exact ⟨bs, ⟨h1, h2⟩, rfl, rfl⟩

/-- A read of several bytes answers nothing exactly when one of them is not admitted. -/
theorem State.readBytes_eq_none (s : State) (a n : Nat) :
    s.readBytes a n = none ↔ ∃ i, i < n ∧ s.readByte (a + i) = none := by
  induction n generalizing a with
  | zero => simp [State.readBytes]
  | succ n ih =>
    rw [State.readBytes_succ]
    cases hb : s.readByte a with
    | none => simp only [true_iff]; exact ⟨0, by omega, by simpa using hb⟩
    | some b =>
      simp only [Option.map_eq_none_iff, ih]
      constructor
      · rintro ⟨i, hi, h⟩; exact ⟨i + 1, by omega, by rw [← h]; congr 1; omega⟩
      · rintro ⟨i, hi, h⟩
        cases i with
        | zero => simp [hb] at h
        | succ i => exact ⟨i, by omega, by rw [← h]; congr 1; omega⟩

/-- A read of several bytes depends on those bytes alone. -/
theorem State.readBytes_congr {s t : State} {a n : Nat} (h : ∀ i, i < n → s.readByte (a + i) = t.readByte (a + i)) :
    s.readBytes a n = t.readBytes a n := by
  induction n generalizing a with
  | zero => rfl
  | succ n ih =>
    rw [State.readBytes_succ, State.readBytes_succ, ← (by simpa using h 0 (by omega) : s.readByte a = t.readByte a)]
    rw [ih (a := a + 1)]
    intro i hi
    rw [show a + 1 + i = a + (i + 1) by omega]
    exact h (i + 1) (by omega)

/-! A command's buffer. -/

theorem State.buffer_of_wraps (s : State) {addr len : Word64} (hw : 2 ^ 64 < addr.toNat + len.toNat) :
    s.buffer addr len = .refused .bufferWraps :=
  if_pos (decide_eq_true hw)

theorem State.buffer_of_fits (s : State) {addr len : Word64} (hw : addr.toNat + len.toNat ≤ 2 ^ 64) :
    s.buffer addr len = orStop (s.readBytes addr.toNat len.toNat) (.refused .bufferNotReadable) :=
  if_neg (by rw [bufferWraps, decide_eq_true_eq]; omega)

/-- Everything the buffer check answers: a wrap, a byte that is not admitted, or the bytes. -/
theorem State.buffer_cases (s : State) (addr len : Word64) :
    (2 ^ 64 < addr.toNat + len.toNat ∧ s.buffer addr len = .refused .bufferWraps) ∨
    (addr.toNat + len.toNat ≤ 2 ^ 64 ∧ (∃ i, i < len.toNat ∧ s.readByte (addr.toNat + i) = none) ∧
      s.buffer addr len = .refused .bufferNotReadable) ∨
    (∃ bytes, s.Buffer addr len bytes ∧ s.buffer addr len = .next bytes) := by
  by_cases hw : addr.toNat + len.toNat ≤ 2 ^ 64
  · rw [State.buffer_of_fits s hw]
    cases hb : s.readBytes addr.toNat len.toNat with
    | none => exact .inr (.inl ⟨hw, (State.readBytes_eq_none ..).mp hb, rfl⟩)
    | some bytes =>
      have h := (State.readBytes_eq_some ..).mp hb
      exact .inr (.inr ⟨bytes, ⟨hw, h.1.symm, h.2⟩, rfl⟩)
  · exact .inl ⟨by omega, State.buffer_of_wraps s (by omega)⟩

/-- The buffer of a command is admitted exactly when it does not wrap and memory holds bytes in all of it. -/
theorem State.buffer_eq_next (s : State) (addr len : Word64) (bytes : List Byte) :
    s.buffer addr len = .next bytes ↔ s.Buffer addr len bytes := by
  constructor
  · intro h
    rcases State.buffer_cases s addr len with ⟨-, h'⟩ | ⟨-, -, h'⟩ | ⟨bs, hb, h'⟩
    · rw [h] at h'; cases h'
    · rw [h] at h'; cases h'
    · rw [h] at h'; cases h'; exact hb
  · intro h
    rw [State.buffer_of_fits s h.fits, (State.readBytes_eq_some s addr.toNat len.toNat bytes).mpr ⟨h.length.symm, h.holds⟩]
    rfl

end Sys2Proof.Machine
end

