-- ==== Sys2Proof/Laws/Exec.lean ====
section
/-! SUPPORT. Everything each command can answer, said once (42_fletcher64.md R90, 43_fletcher128.md R100,
44_striped128.md R110, R112). -/

namespace Sys2Proof.Machine

/-- F64 refuses a buffer that wraps or is not readable, and else writes RES64. -/
theorem execF64_cases (addr len : Word64) (s : State) :
    (2 ^ 64 < addr.toNat + len.toNat ∧ execF64 addr len s = .refused .bufferWraps) ∨
    (addr.toNat + len.toNat ≤ 2 ^ 64 ∧ (∃ i, i < len.toNat ∧ s.readByte (addr.toNat + i) = none) ∧
      execF64 addr len s = .refused .bufferNotReadable) ∨
    (∃ bytes, s.Buffer addr len bytes ∧
      execF64 addr len s = .next (s.setRes64 (pack (fold (wordsOf 32 bytes))))) := by
  unfold execF64
  rcases s.buffer_cases addr len with ⟨h, e⟩ | ⟨h, hr, e⟩ | ⟨bytes, h, e⟩ <;> rw [e]
  · exact .inl ⟨h, rfl⟩
  · exact .inr (.inl ⟨h, hr, rfl⟩)
  · exact .inr (.inr ⟨bytes, h, rfl⟩)

/-- F128 refuses a buffer that wraps or is not readable, and else writes RES128_HI and RES128_LO. -/
theorem execF128_cases (addr len : Word64) (s : State) :
    (2 ^ 64 < addr.toNat + len.toNat ∧ execF128 addr len s = .refused .bufferWraps) ∨
    (addr.toNat + len.toNat ≤ 2 ^ 64 ∧ (∃ i, i < len.toNat ∧ s.readByte (addr.toNat + i) = none) ∧
      execF128 addr len s = .refused .bufferNotReadable) ∨
    (∃ bytes, s.Buffer addr len bytes ∧ execF128 addr len s = .next (s.setRes128 (fold (wordsOf 64 bytes)))) := by
  unfold execF128
  rcases s.buffer_cases addr len with ⟨h, e⟩ | ⟨h, hr, e⟩ | ⟨bytes, h, e⟩ <;> rw [e]
  · exact .inl ⟨h, rfl⟩
  · exact .inr (.inl ⟨h, hr, rfl⟩)
  · exact .inr (.inr ⟨bytes, h, rfl⟩)

/-- SUPD refuses a buffer that wraps or is not readable, faults on a stripe without a value, and else writes the
StripeSet that dealing its words leaves. -/
theorem execSupd_cases (addr len : Word64) (s : State) :
    (2 ^ 64 < addr.toNat + len.toNat ∧ execSupd addr len s = .refused .bufferWraps) ∨
    (addr.toNat + len.toNat ≤ 2 ^ 64 ∧ (∃ i, i < len.toNat ∧ s.readByte (addr.toNat + i) = none) ∧
      execSupd addr len s = .refused .bufferNotReadable) ∨
    (∃ bytes, s.Buffer addr len bytes ∧
      ((∃ S, dealWords s.stripeCount 0 (wordsOf 64 bytes) s.stripes = .next S ∧ S.length = s.stripes.length ∧
          execSupd addr len s = .next (s.setStripes S)) ∨
        (dealWords s.stripeCount 0 (wordsOf 64 bytes) s.stripes = .fault .unspecifiedRegisterRead ∧
          execSupd addr len s = .fault .unspecifiedRegisterRead))) := by
  unfold execSupd
  rcases s.buffer_cases addr len with ⟨h, e⟩ | ⟨h, hr, e⟩ | ⟨bytes, h, e⟩ <;> rw [e]
  · exact .inl ⟨h, rfl⟩
  · exact .inr (.inl ⟨h, hr, rfl⟩)
  · refine .inr (.inr ⟨bytes, h, ?_⟩)
    rw [andThen_next]
    rcases dealWords_cases s.stripeCount (wordsOf 64 bytes) 0 s.stripes with ⟨S, h1, h2⟩ | h1
    · exact .inl ⟨S, h1, h2, by rw [h1]; rfl⟩
    · exact .inr ⟨h1, by rw [h1]; rfl⟩

/-- A next state of any command is the old one with new result and stripe registers, the stripe count kept or made N. -/
theorem exec_next_cases {i : Instr} {s t : State} (h : exec i s = .next t) :
    (∃ addr len bytes, i = .f64 addr len ∧ s.Buffer addr len bytes ∧ t = s.setRes64 (pack (fold (wordsOf 32 bytes)))) ∨
    (∃ addr len bytes, i = .f128 addr len ∧ s.Buffer addr len bytes ∧ t = s.setRes128 (fold (wordsOf 64 bytes))) ∨
    (i = .sclr ∧ t = s.clearStripes) ∨
    (∃ addr len bytes S, i = .supd addr len ∧ s.Buffer addr len bytes ∧
      dealWords s.stripeCount 0 (wordsOf 64 bytes) s.stripes = .next S ∧ S.length = s.stripes.length ∧
      t = s.setStripes S) := by
  cases i with
  | f64 addr len =>
    change execF64 addr len s = .next t at h
    rcases execF64_cases addr len s with ⟨-, e⟩ | ⟨-, -, e⟩ | ⟨bytes, hb, e⟩ <;> rw [h] at e <;> cases e
    exact .inl ⟨addr, len, bytes, rfl, hb, rfl⟩
  | f128 addr len =>
    change execF128 addr len s = .next t at h
    rcases execF128_cases addr len s with ⟨-, e⟩ | ⟨-, -, e⟩ | ⟨bytes, hb, e⟩ <;> rw [h] at e <;> cases e
    exact .inr (.inl ⟨addr, len, bytes, rfl, hb, rfl⟩)
  | sclr => cases h; exact .inr (.inr (.inl ⟨rfl, rfl⟩))
  | supd addr len =>
    change execSupd addr len s = .next t at h
    rcases execSupd_cases addr len s with ⟨-, e⟩ | ⟨-, -, e⟩ | ⟨bytes, hb, ⟨S, h1, h2, e⟩ | ⟨-, e⟩⟩ <;>
      rw [h] at e <;> cases e
    exact .inr (.inr (.inr ⟨addr, len, bytes, S, rfl, hb, h1, h2, rfl⟩))

end Sys2Proof.Machine
end

