-- ==== Sys2Proof/Laws/HostPort.lean ====
section
/-! SUPPORT. Everything one step does, said once per kind of host action (60_exceptions.md R142), and what the read
port answers (10_state.md R19). -/

namespace Sys2Proof.Machine

variable {s : State} {rest : List HostAction}

theorem step_idle (h : s.pending = []) : step s = .next s := by
  unfold step takeAction; rw [h]

theorem step_action {a : HostAction} (h : s.pending = a :: rest) : step s = perform a { s with pending := rest } := by
  unfold step takeAction; rw [h]

theorem step_command {d : Descriptor} {i : Instr} (h : s.pending = .command d :: rest) (hd : decode d = .ok i) :
    step s = exec i { s with pending := rest } := by
  rw [step_action h]; simp only [perform, issue, hd]

theorem step_illegal {d : Descriptor} {e : DecodeError} (h : s.pending = .command d :: rest)
    (hd : decode d = .error e) : step s = .refused .illegalOpcode := by
  cases e; rw [step_action h]; simp only [perform, issue, hd]

theorem step_read {rsel : Word64} (h : s.pending = .read rsel :: rest) :
    step s = State.hostRead { s with pending := rest } rsel := step_action h

theorem step_write {a : Word64} {b : Byte} (h : s.pending = .write a b :: rest) :
    step s = .next (State.hostWrite { s with pending := rest } a.toNat b) := step_action h

theorem step_reset (h : s.pending = .reset :: rest) :
    step s = .next (State.resetEngine { s with pending := rest }) := step_action h

/-- Every step is idle, a command, a refused descriptor, a read, a write or a reset. -/
theorem step_cases (s : State) :
    (s.pending = [] ∧ step s = .next s) ∨
    (∃ d rest i, s.pending = .command d :: rest ∧ decode d = .ok i ∧ step s = exec i { s with pending := rest }) ∨
    (∃ d rest, s.pending = .command d :: rest ∧ decode d = .error .illegalOpcode ∧ step s = .refused .illegalOpcode) ∨
    (∃ rsel rest, s.pending = .read rsel :: rest ∧ step s = State.hostRead { s with pending := rest } rsel) ∨
    (∃ a b rest, s.pending = .write a b :: rest ∧
      step s = .next (State.hostWrite { s with pending := rest } a.toNat b)) ∨
    (∃ rest, s.pending = .reset :: rest ∧ step s = .next (State.resetEngine { s with pending := rest })) := by
  cases h : s.pending with
  | nil => exact .inl ⟨rfl, step_idle h⟩
  | cons a rest =>
    refine .inr ?_
    cases a with
    | command d =>
      cases hd : decode d with
      | ok i => exact .inl ⟨d, rest, i, rfl, hd, step_command h hd⟩
      | error e => cases e; exact .inr (.inl ⟨d, rest, rfl, hd, step_illegal h hd⟩)
    | read rsel => exact .inr (.inr (.inl ⟨rsel, rest, rfl, step_read h⟩))
    | write a b => exact .inr (.inr (.inr (.inl ⟨a, b, rest, rfl, step_write h⟩)))
    | reset => exact .inr (.inr (.inr (.inr ⟨rest, rfl, step_reset h⟩)))

/-- A read answers a bad select, an unspecified register, or a value; it then changes the host's output alone. -/
theorem State.hostRead_cases (s : State) (rsel : Word64) :
    (selectedRegister s.stripeCount rsel = none ∧ s.hostRead rsel = .refused .badRegisterSelect) ∨
    (∃ r, selectedRegister s.stripeCount rsel = some r ∧
      ((s.readRegister? r = none ∧ s.hostRead rsel = .fault .unspecifiedRegisterRead) ∨
       (∃ v, s.readRegister? r = some v ∧ s.hostRead rsel = .next { s with output := s.output ++ [v] }))) := by
  unfold State.hostRead State.readPort
  cases h : selectedRegister s.stripeCount rsel with
  | none => exact .inl ⟨rfl, rfl⟩
  | some r =>
    refine .inr ⟨r, rfl, ?_⟩
    rw [orStop_some, andThen_next]
    cases hv : s.readRegister? r with
    | none => exact .inl ⟨rfl, rfl⟩
    | some v => exact .inr ⟨v, rfl, rfl⟩

/-- The select number of each register, below 2^64 and of this instance, names it (10_state.md R19). -/
theorem selectedRegister_select (n : Nat) (r : RegName) (hb : r.select < 2 ^ 64)
    (hi : ∀ i, r = .stripeLo i ∨ r = .stripeHi i → i < n) :
    selectedRegister n (BitVec.ofNat 64 r.select) = some r := by
  unfold selectedRegister
  rw [BitVec.toNat_ofNat, Nat.mod_eq_of_lt hb]
  cases r with
  | stripeLo i =>
    have hlt := hi i (.inl rfl)
    have e1 : (0x100 + 2 * i - 0x100) / 2 = i := by omega
    have e2 : (0x100 + 2 * i - 0x100) % 2 = 0 := by omega
    simp only [RegName.select, e1, e2, if_true]
    rw [if_neg (by omega), if_neg (by omega), if_neg (by omega), if_neg (by omega), if_neg (by omega),
      if_pos ⟨by omega, hlt⟩]
  | stripeHi i =>
    have hlt := hi i (.inr rfl)
    have e1 : (0x100 + 2 * i + 1 - 0x100) / 2 = i := by omega
    have e2 : (0x100 + 2 * i + 1 - 0x100) % 2 = 1 := by omega
    simp only [RegName.select, e1, e2]
    rw [if_neg (by omega), if_neg (by omega), if_neg (by omega), if_neg (by omega), if_neg (by omega),
      if_pos ⟨by omega, hlt⟩, if_neg (by omega)]
  | _ => simp [RegName.select]

end Sys2Proof.Machine
end

