-- ==== Sys2Proof/Laws/PerInstr.lean ====
section
/-! SUPPORT. Facts about each command as syntax. -/

namespace Sys2Proof.Laws.OpcodeRow

/-- The encoded command has its row's match value under the row's mask (30_encoding.md R52). -/
def Statement (i : Instr) : Prop := encode i &&& rowMask = rowMatch i

/-- The mask keeps the `op` field and clears the rest. -/
theorem mask_descriptor (op : BitVec 8) (addr len : Word64) :
    descriptor op addr len &&& rowMask = descriptor op 0#64 0#64 := by
  have hm : rowMask = (BitVec.allOnes 8 ++ 0#128 : BitVec (8 + 128)) := by decide
  have hz : (0#64 ++ 0#64 : BitVec (64 + 64)) = 0#128 := by decide
  rw [hm]
  calc op ++ (addr ++ len) &&& BitVec.allOnes 8 ++ 0#128
      = (op &&& BitVec.allOnes 8) ++ ((addr ++ len : BitVec (64 + 64)) &&& 0#128) := BitVec.and_append
    _ = descriptor op 0#64 0#64 := by rw [BitVec.and_allOnes, BitVec.and_zero, descriptor, hz]

theorem f64 (addr len : Word64) : Statement (.f64 addr len) := (mask_descriptor _ addr len).trans rfl
theorem f128 (addr len : Word64) : Statement (.f128 addr len) := (mask_descriptor _ addr len).trans rfl
theorem sclr : Statement .sclr := mask_descriptor _ 0#64 0#64
theorem supd (addr len : Word64) : Statement (.supd addr len) := (mask_descriptor _ addr len).trans rfl

end Sys2Proof.Laws.OpcodeRow
end

