-- ==== Sys2Proof/Laws/Run.lean ====
section
/-! SUPPORT. Putting safe runs together, step by step (70_reset_and_hazards.md R164). -/

namespace Sys2Proof.Machine

/-- A run of `k + 1` steps is a step and a run of `k`. -/
theorem core_run_succ (k : Nat) (s : State) :
    Host.Core.run Sys2Proof.core (k + 1) s =
      (andThen (step s) fun t => Host.Core.run Sys2Proof.core k t : Host.Outcome State Fault Refusal) := by
  refine (Host.Core.run.eq_2 Sys2Proof.core s k).trans ?_
  unfold andThen
  cases hs : step s with
  | next t => rw [show Sys2Proof.core.step s = .next t from hs]
  | fault r => rw [show Sys2Proof.core.step s = .fault r from hs]; rfl
  | refused r => rw [show Sys2Proof.core.step s = .refused r from hs]; rfl

theorem safeRun_zero (s : State) : SafeRun 0 s s := rfl

/-- A safe run of `k + 1` steps is a step to a next state and a safe run of `k` from there. -/
theorem safeRun_succ {k : Nat} {s u : State} :
    SafeRun (k + 1) s u ↔ ∃ t, step s = .next t ∧ SafeRun k t u := by
  unfold SafeRun
  rw [core_run_succ]
  exact andThen_eq_next

theorem safeRun_one {s t : State} (h : step s = .next t) : SafeRun 1 s t :=
  safeRun_succ.mpr ⟨t, h, rfl⟩

/-- Two safe runs, the second from where the first ends, are one. -/
theorem safeRun_append {k m : Nat} {s t u : State} (h : SafeRun k s t) (h' : SafeRun m t u) :
    SafeRun (k + m) s u := by
  induction k generalizing s with
  | zero => cases h; rw [Nat.zero_add]; exact h'
  | succ k ih =>
    obtain ⟨r, hr, hk⟩ := safeRun_succ.mp h
    rw [show k + 1 + m = k + m + 1 by omega]
    exact safeRun_succ.mpr ⟨r, hr, ih hk⟩

end Sys2Proof.Machine
end

