-- ==== Sys2Proof/Tests/Slice0.lean ====
section
/-! SUPPORT. The model's own tests: ill-formed terms refused, the spec's encodings and vectors (95_test_vectors.md) on
one step, and for each statement of Certificates/Slice0/Obligations.lean with hypotheses a witness that meets them. -/

namespace Sys2Proof.Tests

open Sys2Proof Sys2Proof.Machine

/-! Small states. -/

/-- An engine right after reset with N stripes, BLOCK_SIZE 16, this memory and these host actions. -/
def engine (n : Word64) (mem : List Host.Cell) (pending : List HostAction) : State :=
  { State.ofParams ⟨n, 16#64⟩ with mem := mem, pending := pending }

/-- Cells holding bytes from an address on. -/
def cells : Nat → List Byte → List Host.Cell
  | _, [] => []
  | a, b :: bs => (a, b) :: cells (a + 1) bs

/-- The bytes 01, 02, … of the spec's vectors. -/
def upTo (n : Nat) : List Byte := (List.range n).map fun j => BitVec.ofNat 8 (j + 1)

/-- Two stripes, memory with the bytes 01 … 09 at 0x1000. -/
def nine (pending : List HostAction) : State := engine 2#64 (cells 0x1000 (upTo 9)) pending

/-- The same after SCLR. -/
def cleared (pending : List HostAction) : State := (nine pending).clearStripes

/-- Five bytes at 0x1000, zero-extended to eight. -/
def padded : State := engine 2#64 (cells 0x1000 [1#8, 2#8, 3#8, 4#8, 5#8, 0#8, 0#8, 0#8]) []

/-- The first stripe holds (0, 0); of the second one register is unspecified. -/
def halfStripes : State :=
  { cleared [] with stripes := [Stripe.holding (Pair.zero 64), ⟨Reg.unspecified, Reg.holding 0#64⟩] }

/-- One stripe and blocks of 8 bytes. -/
def oneStripe : State := { engine 1#64 (cells 0x1000 (upTo 9)) [] with cfgBs := 8#64 }

/-- The host's striped procedure over a file of three bytes, block buffer at 0x2000. -/
def striped : State := nine (stripedFile 2 16 0x2000#64 (upTo 3))

/-! Ill-formed terms (20_memory.md R33, 00_scope.md R5, 30_encoding.md R58). -/

theorem test_wrapping_f64_is_ill_formed : (Instr.f64 0xFFFFFFFFFFFFFFFF#64 2#64).wellFormed = false := by decide
theorem test_wrapping_f128_is_ill_formed : (Instr.f128 0xFFFFFFFFFFFFFFF9#64 8#64).wellFormed = false := by decide
theorem test_wrapping_supd_is_ill_formed : (Instr.supd 0xFFFFFFFFFFFFFFF9#64 8#64).wellFormed = false := by decide
theorem test_last_byte_is_well_formed : (Instr.f64 0xFFFFFFFFFFFFFFFF#64 1#64).wellFormed = true := by decide
theorem test_no_stripe_is_illegal : Params.legal ⟨0#64, 16#64⟩ = false := by decide
theorem test_block_size_zero_is_illegal : Params.legal ⟨2#64, 0#64⟩ = false := by decide
theorem test_block_size_twelve_is_illegal : Params.legal ⟨2#64, 12#64⟩ = false := by decide
theorem test_wide_addr_is_ill_formed : (AsmLine.f64 (2 ^ 64) 0).wellFormed = false := by decide
theorem test_wide_len_is_ill_formed : (AsmLine.supd 0 (2 ^ 64)).wellFormed = false := by decide
theorem test_wide_f128_is_ill_formed : (AsmLine.f128 0 (2 ^ 64)).wellFormed = false := by decide
theorem test_wide_stripe_lo_is_ill_formed : (AsmLine.rd (.stripeLo (2 ^ 63 - 128))).wellFormed = false := by decide
theorem test_wide_stripe_hi_is_ill_formed : (AsmLine.rd (.stripeHi (2 ^ 63 - 128))).wellFormed = false := by decide
theorem test_illegal_instance_is_not_built : State.instantiate ⟨2#64, 12#64⟩ = none := by decide

/-! Decoding: words written out from the fields of 30_encoding.md R50, op 8 bits, addr 64, len 64 (V60 to V68). -/

theorem test_decode_f64 :
    decode (0b00000001#8 ++ (0x0000000000001000#64 ++ 0x0000000000000005#64)) = .ok (.f64 0x1000#64 5#64) := by decide
theorem test_decode_f128 :
    decode (0b00000010#8 ++ (0x0000000000002000#64 ++ 0x000000000000000D#64)) = .ok (.f128 0x2000#64 13#64) := by decide
theorem test_decode_sclr : decode 0x03DEADBEEF00000000FFFFFFFFFFFFFFFF#136 = .ok .sclr := by decide
theorem test_decode_supd :
    decode (0b00000100#8 ++ (0x0000000000003000#64 ++ 0x0000000000000025#64)) = .ok (.supd 0x3000#64 37#64) := by decide
theorem test_decode_top_bits :
    decode 0x04800000000000000180000000000000FE#136 = .ok (.supd 0x8000000000000001#64 0x80000000000000FE#64) := by
  decide
theorem test_decode_all_zero_word : decode 0#136 = .error .illegalOpcode := by decide
theorem test_decode_neighbour : decode 0x0500000000000010000000000000000005#136 = .error .illegalOpcode := by decide
theorem test_table_word : decodeTableWord 136 0x0400000000000000000000000000000000 = some (.supd 0#64 0#64) := by decide

/-- The notation of 30_encoding.md R58 and its example RD lines. -/
theorem test_parse_f64 :
    parseLine "F64 0x1000, 5 ; comment".toList = some (.f64 0x1000 5) ∧
    (AsmLine.f64 0x1000 5).assemble = some (.command 0x0100000000000010000000000000000005#136) := by decide
theorem test_parse_rd :
    parseLine "RD S[1].hi".toList = some (.rd (.stripeHi 1)) ∧
    (AsmLine.rd (.stripeHi 1)).assemble = some (.read 0x103#64) ∧ parseLine "RD S[1].mid".toList = none := by decide

/-! One command each (95_test_vectors.md). -/

/-- V16, V18: 01 02 03 04 05 gives 0806040704030206, whatever follows in memory. -/
theorem test_f64_tail : exec (.f64 0x1000#64 5#64) (nine []) =
    .next { nine [] with res64 := ⟨0x0806040704030206#64, true⟩ } := by rfl
/-- V25: both sums wrap. -/
theorem test_f64_wraps : pack (fold (wordsOf 32 (List.replicate 8 0xFF#8))) = 0xFFFFFFFDFFFFFFFE#64 := by decide
/-- V36: 01 … 09. -/
theorem test_f128_tail : exec (.f128 0x1000#64 9#64) (nine []) =
    .next { nine [] with res128Hi := ⟨0x100E0C0A0806040B#64, true⟩, res128Lo := ⟨0x080706050403020A#64, true⟩ } := by rfl
/-- V39b: 01 … 10. -/
theorem test_f128_two_words :
    fold (wordsOf 64 (upTo 16)) = ⟨0x201D1A1714110E0B#64, 0x18161412100E0C0A#64⟩ := by decide
/-- V50: SCLR discards what the stripes held. -/
theorem test_sclr : exec .sclr { nine [] with stripes := [⟨⟨1#64, true⟩, ⟨2#64, true⟩⟩, Stripe.unspecified] } =
    .next { nine [] with stripes := [⟨⟨0#64, true⟩, ⟨0#64, true⟩⟩, ⟨⟨0#64, true⟩, ⟨0#64, true⟩⟩] } := by rfl
/-- V43: 37 bytes dealt to two stripes, the tail word to S[0]. -/
theorem test_supd_deals : dealWords 2 0 (wordsOf 64 (upTo 37)) (List.replicate 2 (Stripe.holding (Pair.zero 64))) =
    .next [⟨⟨0x48433E5E58524C46#64, true⟩, ⟨0x201E1C3F3C393633#64, true⟩⟩,
      ⟨⟨0x403D3A3734312E2B#64, true⟩, ⟨0x302E2C2A28262422#64, true⟩⟩] := by rfl
/-- V77: SUPD before SCLR faults. -/
theorem test_supd_faults : exec (.supd 0x1000#64 8#64) (nine []) = .fault .unspecifiedRegisterRead := by rfl
/-- V72: the byte after the admitted nine. -/
theorem test_not_readable : exec (.f128 0x1000#64 10#64) (nine []) = .refused .bufferNotReadable := by rfl
/-- V74, V75: select numbers that name no register. -/
theorem test_bad_select : (nine []).readPort 0x104#64 = .refused .badRegisterSelect ∧
    (nine []).readPort 0x05#64 = .refused .badRegisterSelect ∧ (nine []).readPort 0x04#64 = .next 16#64 := ⟨rfl, rfl, rfl⟩
/-- V76: RES64 after reset. -/
theorem test_read_after_reset : (nine []).readPort 0#64 = .fault .unspecifiedRegisterRead := by rfl

/-! Witnesses: what the hypotheses of each statement ask, met. -/

theorem buffer_nine (pending : List HostAction) : (nine pending).Buffer 0x1000#64 9#64 (upTo 9) :=
  (State.buffer_eq_next ..).mp rfl
theorem buffer_five : (nine []).Buffer 0x1000#64 5#64 [1#8, 2#8, 3#8, 4#8, 5#8] := (State.buffer_eq_next ..).mp rfl

/-- The hypothesis on the host's next action, for every small state. -/
theorem test_witness_next_action (a : HostAction) : (nine [a]).pending = a :: [] ∧ (cleared [a]).pending = a :: [] :=
  ⟨rfl, rfl⟩

/-- IllegalOpcodeIsRefused, at the values next to the legal ones and at the top. -/
theorem test_witness_illegal_opcode :
    (0#136 : Descriptor).toNat / 2 ^ 128 = 0x00 ∧
    (0x0500000000000010000000000000000005#136 : Descriptor).toNat / 2 ^ 128 = 0x05 ∧
    (0xFF00000000000010000000000000000005#136 : Descriptor).toNat / 2 ^ 128 = 0xFF ∧
    (nine [.command 0#136]).pending = [.command 0#136] := ⟨by decide, by decide, by decide, rfl⟩
/-- OnlySclrIgnoresFields. -/
theorem test_witness_whole_fields :
    decode 0x0100000000000010000000000000000005#136 = .ok (.f64 0x1000#64 5#64) ∧ Instr.f64 0x1000#64 5#64 ≠ .sclr := by
  decide
/-- AssemblerLineDecodes, at the largest operands and the largest select number. -/
theorem test_witness_assembler :
    2 ^ 64 - 1 < 2 ^ 64 ∧ 0 < 2 ^ 64 ∧ (RegName.stripeHi (2 ^ 63 - 129)).select = 2 ^ 64 - 1 := by decide
/-- StepRunsDecodedCommand. -/
theorem test_witness_step_runs :
    (nine [.command (descriptor 0x04#8 0x1000#64 9#64), .reset]).pending =
      .command (descriptor 0x04#8 0x1000#64 9#64) :: [.reset] ∧
    decode (descriptor 0x04#8 0x1000#64 9#64) = .ok (.supd 0x1000#64 9#64) := by decide
/-- IdleEngineStays. -/
theorem test_witness_idle : State.reset.pending = [] := rfl
/-- AccumulatorCornerCases: both wraps at their boundary, and a reordered list. -/
theorem test_witness_wraps :
    2 ^ 32 ≤ (⟨0#32, 0xFFFFFFFF#32⟩ : Pair 32).lo.toNat + (1#32).toNat ∧
    2 ^ 32 ≤ (⟨0xFFFFFFFF#32, 0#32⟩ : Pair 32).hi.toNat + (acc (⟨0xFFFFFFFF#32, 0#32⟩ : Pair 32) 1#32).lo.toNat ∧
    [1#32, 2#32].Perm [2#32, 1#32] := by decide
/-- WordCountAndBounds: the longest length, and one byte. -/
theorem test_witness_word_count : 0 < 8 ∧ (0xFFFFFFFFFFFFFFFF#64 : Word64).toNat < 2 ^ 64 ∧ 1 < 2 ^ 64 := by decide
/-- WordIsLittleEndianSum: the tail word of nine bytes, for both widths. -/
theorem test_witness_word_sum : (nine []).Buffer 0x1000#64 9#64 (upTo 9) ∧
    2 < nwords (32 / 8) (9#64 : Word64).toNat ∧ 1 < nwords (64 / 8) (9#64 : Word64).toNat := ⟨buffer_nine [], by decide, by decide⟩
/-- WordBytePositions, WordListAscends: the last byte of a word, the last word. -/
theorem test_witness_byte_positions : 3 < 32 / 8 ∧ 7 < 64 / 8 ∧ 2 < nwords (32 / 8) (upTo 9).length ∧
    1 < nwords (64 / 8) (upTo 9).length ∧ ([] : List Byte).length = 0 := by decide
/-- TailPaddingEquivalence: five bytes and their zero extensions to a 4-byte and to an 8-byte boundary. -/
theorem test_witness_padding :
    (5#64 : Word64).toNat = [1#8, 2#8, 3#8, 4#8, 5#8].length ∧
    padded.Buffer 0x1000#64 8#64 ([1#8, 2#8, 3#8, 4#8, 5#8] ++ List.replicate (4 * nwords 4 5 - 5) 0#8) ∧
    padded.Buffer 0x1000#64 8#64 ([1#8, 2#8, 3#8, 4#8, 5#8] ++ List.replicate (8 * nwords 8 5 - 5) 0#8) :=
  ⟨by decide, (State.buffer_eq_next ..).mp rfl, (State.buffer_eq_next ..).mp rfl⟩
/-- MixedWidthWords: the least buffer with both halves full. -/
theorem test_witness_mixed : 4 * (2 * 0 + 1) + 4 ≤ (upTo 8).length := by decide
/-- F64WritesPackedFold, F128WritesFold, WordStepsComputeF64, WordStepsComputeF128: a buffer, and the buffer of the last
byte of the address space. -/
theorem test_witness_buffer : (nine []).Buffer 0x1000#64 9#64 (upTo 9) ∧
    (engine 2#64 [(0xFFFFFFFFFFFFFFFF, 7#8)] []).Buffer 0xFFFFFFFFFFFFFFFF#64 1#64 [7#8] :=
  ⟨buffer_nine [], (State.buffer_eq_next ..).mp rfl⟩

theorem specified_cleared : (cleared []).StripesSpecified 2 := by
  intro i h _
  match i, h with
  | 0, _ => exact ⟨rfl, rfl⟩
  | 1, _ => exact ⟨rfl, rfl⟩
/-- SupdUpdatesEachLane: two words for two stripes; and an entry of the stripe array. -/
theorem test_witness_supd : (cleared []).Buffer 0x1000#64 9#64 (upTo 9) ∧ 1 ≤ (cleared []).cfgN.toNat ∧
    (cleared []).stripes.length = (cleared []).cfgN.toNat ∧
    (cleared []).StripesSpecified (nwords 8 (9#64 : Word64).toNat) ∧
    (cleared []).stripes[1]? = some ⟨⟨0#64, true⟩, ⟨0#64, true⟩⟩ :=
  ⟨(State.buffer_eq_next ..).mp rfl, by decide, by decide, specified_cleared, rfl⟩
/-- LaneIsRoundRobin. -/
theorem test_witness_lane : 1 < 2 ∧ lane 2 1 (wordsOf 64 (upTo 37)) = [0x100F0E0D0C0B0A09#64, 0x201F1E1D1C1B1A19#64] := by
  decide
theorem specified_half : halfStripes.StripesSpecified (nwords 8 (8#64 : Word64).toNat) := by
  intro i h hi
  match i, h, hi with
  | 0, _, _ => exact ⟨rfl, rfl⟩
/-- UntouchedStripes: one word for two stripes, the second of them unspecified. -/
theorem test_witness_untouched_unspecified : halfStripes.Buffer 0x1000#64 8#64 (upTo 8) ∧ 1 ≤ halfStripes.cfgN.toNat ∧
    halfStripes.stripes.length = halfStripes.cfgN.toNat ∧
    halfStripes.StripesSpecified (nwords 8 (8#64 : Word64).toNat) :=
  ⟨(State.buffer_eq_next ..).mp rfl, by decide, by decide, specified_half⟩
/-- UntouchedStripes: one word for two stripes. -/
theorem test_witness_untouched : 1 ≤ (cleared []).cfgN.toNat ∧ (∃ t, exec (.supd 0x1000#64 8#64) (cleared []) = .next t) ∧
    1 < (cleared []).cfgN.toNat ∧ nwords 8 (8#64 : Word64).toNat ≤ 1 ∧ 1 ≤ 2 := ⟨by decide, ⟨_, rfl⟩, by decide⟩
/-- SupdFaultsOnUnspecifiedStripe: the first word's stripe, and the second's with one register unspecified. -/
theorem test_witness_supd_fault :
    (nine []).Buffer 0x1000#64 9#64 (upTo 9) ∧ 0 < (nine []).cfgN.toNat ∧ 0 < nwords 8 (9#64 : Word64).toNat ∧
    (nine []).stripes[0]? = some Stripe.unspecified ∧ Stripe.unspecified.hi.specified = false ∧
    halfStripes.Buffer 0x1000#64 9#64 (upTo 9) ∧ 1 < halfStripes.cfgN.toNat ∧ 1 < nwords 8 (9#64 : Word64).toNat ∧
    halfStripes.stripes[1]? = some ⟨Reg.unspecified, Reg.holding 0#64⟩ :=
  ⟨buffer_nine [], by decide, by decide, rfl, rfl, (State.buffer_eq_next ..).mp rfl, by decide, by decide, rfl⟩
/-- WrappingBufferIsRefused, and the wrap of F64WritesPackedFold and F128WritesFold: the least wrap at the top address (V70), and the longest buffer from address 1. -/
theorem test_witness_wrapping : 2 ^ 64 < (0xFFFFFFFFFFFFFFFF#64 : Word64).toNat + (2#64 : Word64).toNat ∧
    2 ^ 64 < (2#64 : Word64).toNat + (0xFFFFFFFFFFFFFFFF#64 : Word64).toNat := by decide
/-- ChecksInOrder: the opcode's clause, SCLR's, and for F64, F128 and SUPD the wrap (V70, V71), the byte that is not
admitted (V72) and the admitted buffer. -/
theorem test_witness_checks_opcode :
    (nine [.command 0x05FFFFFFFFFFFFFFFF0000000000000002#136]).pending =
      [.command 0x05FFFFFFFFFFFFFFFF0000000000000002#136] ∧
    decode 0x05FFFFFFFFFFFFFFFF0000000000000002#136 = .error .illegalOpcode ∧
    decode 0x0300000000000000000000000000000000#136 = .ok .sclr := by decide
theorem test_witness_checks_wrap :
    decode 0x01FFFFFFFFFFFFFFFF0000000000000002#136 = .ok (.f64 0xFFFFFFFFFFFFFFFF#64 2#64) ∧
    2 ^ 64 < (0xFFFFFFFFFFFFFFFF#64 : Word64).toNat + (2#64 : Word64).toNat ∧
    decode 0x04FFFFFFFFFFFFFFF90000000000000008#136 = .ok (.supd 0xFFFFFFFFFFFFFFF9#64 8#64) ∧
    2 ^ 64 < (0xFFFFFFFFFFFFFFF9#64 : Word64).toNat + (8#64 : Word64).toNat := by decide
/-- Also the clause of F64WritesPackedFold and F128WritesFold on a byte that is not readable. -/
theorem test_witness_checks_readable :
    decode (descriptor 0x02#8 0x1000#64 10#64) = .ok (.f128 0x1000#64 10#64) ∧
    (0x1000#64 : Word64).toNat + (10#64 : Word64).toNat ≤ 2 ^ 64 ∧
    9 < (10#64 : Word64).toNat ∧ (nine []).readByte ((0x1000#64 : Word64).toNat + 9) = none ∧
    (∀ i, i < (9#64 : Word64).toNat → (nine []).readByte ((0x1000#64 : Word64).toNat + i) ≠ none) := by decide
/-- OutcomeDependsOnFootprint: two memories that differ only beyond the buffer (V18). -/
theorem test_witness_footprint :
    (nine []).SameRegisters (engine 2#64 (cells 0x1000 [1#8, 2#8, 3#8, 4#8, 5#8, 0xAA#8]) []) ∧
    (∀ i, i < 5 → (nine []).readByte (0x1000 + i) =
      (engine 2#64 (cells 0x1000 [1#8, 2#8, 3#8, 4#8, 5#8, 0xAA#8]) []).readByte (0x1000 + i)) ∧
    (nine []).readByte 0x1005 ≠ (engine 2#64 (cells 0x1000 [1#8, 2#8, 3#8, 4#8, 5#8, 0xAA#8]) []).readByte 0x1005 :=
  ⟨⟨rfl, rfl, rfl, rfl, rfl, rfl⟩, by decide, by decide⟩
/-- KnownVectors. -/
theorem test_witness_vectors :
    (engine 1#64 (cells 0x1000 [1#8, 0#8, 0#8, 0#8, 0#8, 0#8, 0#8, 0#8]) []).Buffer 0x1000#64 4#64
      [0x01, 0x00, 0x00, 0x00] ∧
    (engine 1#64 (cells 0x1000 [1#8, 0#8, 0#8, 0#8, 0#8, 0#8, 0#8, 0#8]) []).Buffer 0x1000#64 8#64
      [0x01, 0x00, 0x00, 0x00, 0x00, 0x00, 0x00, 0x00] ∧
    (nine []).Buffer 0x1000#64 8#64 [0x01, 0x02, 0x03, 0x04, 0x05, 0x06, 0x07, 0x08] :=
  ⟨(State.buffer_eq_next ..).mp rfl, (State.buffer_eq_next ..).mp rfl, (State.buffer_eq_next ..).mp rfl⟩
/-- OneStripeEqualsF128. -/
theorem test_witness_one_stripe : (engine 1#64 (cells 0x1000 (upTo 9)) []).cfgN.toNat = 1 ∧
    (engine 1#64 (cells 0x1000 (upTo 9)) []).Buffer 0x1000#64 9#64 (upTo 9) :=
  ⟨by decide, (State.buffer_eq_next ..).mp rfl⟩
/-- ChunkedFileGivesLaneFolds: one stripe, a full chunk of 8 bytes and a last one of 1 (BLOCK_SIZE 8). -/
theorem test_witness_chunks :
    1 ≤ oneStripe.cfgN.toNat ∧ oneStripe.cfgBs.toNat % 8 = 0 ∧ exec .sclr oneStripe = .next oneStripe.clearStripes ∧
    (∃ t, ChunkRun oneStripe.clearStripes [upTo 8, [9#8]] t) ∧
    ChunkDuty (oneStripe.cfgN.toNat * oneStripe.cfgBs.toNat) [upTo 8, [9#8]] := by
  refine ⟨by decide, by decide, rfl, ?_, by unfold ChunkDuty; decide⟩
  exact ⟨_, .chunk _ oneStripe.clearStripes _ _ 0x1000#64 8#64 _ _ ⟨rfl, rfl, rfl, rfl, rfl, rfl⟩
    ((State.buffer_eq_next ..).mp rfl) rfl
    (.chunk _ _ _ _ 0x1008#64 1#64 _ _ ⟨rfl, rfl, rfl, rfl, rfl, rfl⟩ ((State.buffer_eq_next ..).mp rfl) rfl
      (.done _ _ ⟨rfl, rfl, rfl, rfl, rfl, rfl⟩))⟩
/-- PaddedRangeIsWordCount: nine bytes, BLOCK_SIZE 8. -/
theorem test_witness_padded_range : 8 ≤ 8 ∧ 8 % 8 = 0 ∧
    16 = (upTo 9).length / 8 * 8 + 8 * (((upTo 9).length % 8 + 7) / 8) := by decide
/-- CommandsLeaveTheRestAlone: every command answers a next state somewhere. -/
theorem test_witness_commands_complete :
    (∃ t, exec (.f64 0x1000#64 9#64) (nine []) = .next t) ∧ (∃ t, exec (.f128 0x1000#64 9#64) (nine []) = .next t) ∧
    (∃ t, exec .sclr (nine []) = .next t) ∧ (∃ t, exec (.supd 0x1000#64 9#64) (cleared []) = .next t) :=
  ⟨⟨_, rfl⟩, ⟨_, rfl⟩, ⟨_, rfl⟩, ⟨_, rfl⟩⟩
/-- ConfigurationIsHardwired, MemoryChangesOnlyByHostWrite: a host write steps and changes a byte. -/
theorem test_witness_host_write : ∃ t, step (nine [.write 0x1003#64 0xEE#8]) = .next t ∧
    t.readByte 0x1003 ≠ (nine [.write 0x1003#64 0xEE#8]).readByte 0x1003 := ⟨_, rfl, by decide⟩

theorem legal_nine (pending : List HostAction) : (nine pending).Legal where
  memory := rfl
  parameters := by change Params.legal ⟨2#64, 16#64⟩ = true; decide
  stripeCount := rfl
  res128 := rfl
  stripePairs := by
    intro st hst
    rw [List.eq_of_mem_replicate (n := 2) hst]; rfl
/-- StepKeepsLegalStates. -/
theorem test_witness_legal : (nine [.write 0x0FFF#64 1#8]).Legal ∧
    ∃ t, step (nine [.write 0x0FFF#64 1#8]) = .next t := ⟨legal_nine _, _, rfl⟩
/-- UnspecifiedBitsAreInvisible: two states with different bits under the mark. -/
theorem test_witness_indistinct :
    (nine [.read 0#64]).Indistinct { nine [.read 0#64] with res64 := ⟨0xDEADBEEF#64, false⟩ } ∧
    nine [.read 0#64] ≠ { nine [.read 0#64] with res64 := ⟨0xDEADBEEF#64, false⟩ } :=
  ⟨⟨rfl, rfl, rfl, .cons ⟨rfl, rfl⟩ (.cons ⟨rfl, rfl⟩ .nil), rfl, rfl, rfl, rfl, rfl, rfl⟩, by decide⟩
/-- StopsAreTheNamedOnes: the fault twice, and each of the four refusals. -/
theorem test_witness_stops :
    step (nine [.read 0#64]) = .fault .unspecifiedRegisterRead ∧
    step (nine [.command (descriptor 0x04#8 0x1000#64 8#64)]) = .fault .unspecifiedRegisterRead ∧
    step (nine [.command 0#136]) = .refused .illegalOpcode ∧
    step (nine [.command 0x01FFFFFFFFFFFFFFFF0000000000000002#136]) = .refused .bufferWraps ∧
    step (nine [.command (descriptor 0x02#8 0x1000#64 10#64)]) = .refused .bufferNotReadable ∧
    step (nine [.read 0x104#64]) = .refused .badRegisterSelect := ⟨rfl, rfl, rfl, rfl, rfl, rfl⟩
/-- OnlyLegalInstancesAreBuilt: the least parameters. -/
theorem test_witness_instance : ∃ s, State.instantiate ⟨1#64, 8#64⟩ = some s := ⟨_, rfl⟩

/-- A state whose registers all hold values, with one action waiting. -/
def full (a : HostAction) : State :=
  { nine [a] with
    res64 := ⟨1#64, true⟩, res128Lo := ⟨2#64, true⟩, res128Hi := ⟨3#64, true⟩
    stripes := [⟨⟨5#64, true⟩, ⟨4#64, true⟩⟩, ⟨⟨7#64, true⟩, ⟨6#64, true⟩⟩] }
theorem test_witness_full_next (a : HostAction) : (full a).pending = a :: [] := rfl
/-- ReadPortReturnsRegister: every clause, the stripes' at the first and the last index. -/
theorem test_witness_read_port :
    (full (.read 0x00#64)).res64 = ⟨1#64, true⟩ ∧ (full (.read 0x01#64)).res128Lo = ⟨2#64, true⟩ ∧
    (full (.read 0x02#64)).res128Hi = ⟨3#64, true⟩ ∧ (full (.read 0x03#64)).cfgN = 2#64 ∧
    (full (.read 0x04#64)).cfgBs = 16#64 ∧ 0 < (full (.read 0x100#64)).cfgN.toNat ∧
    (full (.read 0x100#64)).stripes[0]? = some ⟨⟨5#64, true⟩, ⟨4#64, true⟩⟩ ∧
    (0x100#64 : Word64).toNat = 0x100 + 2 * 0 ∧ 1 < (full (.read 0x103#64)).cfgN.toNat ∧
    (full (.read 0x103#64)).stripes[1]? = some ⟨⟨7#64, true⟩, ⟨6#64, true⟩⟩ ∧
    (0x103#64 : Word64).toNat = 0x100 + 2 * 1 + 1 ∧ (full (.read 0x103#64)).pending = [.read 0x103#64] := by decide
/-- ReadPortStops: both gaps at their ends, and each register unspecified. -/
theorem test_witness_read_stops :
    (nine [.read 0x05#64]).pending = [.read 0x05#64] ∧
    0x05 ≤ (0x05#64 : Word64).toNat ∧ (0x05#64 : Word64).toNat < 0x100 ∧
    0x05 ≤ (0xFF#64 : Word64).toNat ∧ (0xFF#64 : Word64).toNat < 0x100 ∧
    0x100 + 2 * (nine [.read 0x104#64]).cfgN.toNat ≤ (0x104#64 : Word64).toNat ∧
    0x100 + 2 * (nine [.read 0x104#64]).cfgN.toNat ≤ (0xFFFFFFFFFFFFFFFF#64 : Word64).toNat ∧
    (nine [.read 0x00#64]).res64.specified = false ∧ (nine [.read 0x01#64]).res128Lo.specified = false ∧
    (nine [.read 0x02#64]).res128Hi.specified = false ∧ 1 < (nine [.read 0x102#64]).cfgN.toNat ∧
    (nine [.read 0x102#64]).stripes[1]? = some Stripe.unspecified ∧ Stripe.unspecified.lo.specified = false ∧
    Stripe.unspecified.hi.specified = false ∧ (0x102#64 : Word64).toNat = 0x100 + 2 * 1 ∧
    (0x103#64 : Word64).toNat = 0x100 + 2 * 1 + 1 := by decide
/-- ResetEventForgetsRegisters. -/
theorem test_witness_reset : (full .reset).pending = [.reset] := rfl
/-- HostWriteIsReadBack: an address the platform gives the host, and one it withholds. -/
theorem test_witness_write_back :
    (nine [.write 0x1003#64 0xEE#8]).withholds 0x1003 = false ∧
    ({ nine [.write 0x1003#64 0xEE#8] with withheld := [⟨0x1003#64, 1⟩] } : State).withholds 0x1003 = true ∧
    ({ nine [.write 0x1003#64 0xEE#8] with withheld := [⟨0x1003#64, 1⟩] } : State).withholds 0x1004 = false := by decide
/-- ProcedureMeetsChunkDuty: a file of one chunk and one byte more. -/
theorem test_witness_chunks_of : 0 < 8 ∧ chunksOf 8 9 (upTo 9) = [upTo 8, [9#8]] ∧ [9#8] ∈ chunksOf 8 9 (upTo 9) ∧
    upTo 8 ∈ (chunksOf 8 9 (upTo 9)).dropLast := by decide
/-- StripedProcedureDeliversLaneFolds: the block buffer at 0x2000 and at the top of the address space. -/
theorem test_witness_striped_procedure :
    striped.Legal ∧ striped.cfgN.toNat * striped.cfgBs.toNat < 2 ^ 64 ∧
    (0x2000#64 : Word64).toNat + striped.cfgN.toNat * striped.cfgBs.toNat ≤ 2 ^ 64 ∧
    (0xFFFFFFFFFFFFFFE0#64 : Word64).toNat + striped.cfgN.toNat * striped.cfgBs.toNat ≤ 2 ^ 64 ∧
    0x100 + 2 * striped.cfgN.toNat ≤ 2 ^ 64 ∧ (∀ a, striped.withholds a = false) ∧
    striped.pending = stripedFile striped.cfgN.toNat striped.cfgBs.toNat 0x2000#64 (upTo 3) :=
  ⟨legal_nine _, by decide, by decide, by decide, by decide, fun _ => rfl, rfl⟩
/-- WordStepsComputeSupd. -/
theorem test_witness_word_steps : ∃ t, exec (.supd 0x1000#64 9#64) (cleared []) = .next t := ⟨_, rfl⟩
/-- RacesAreRefused: the last byte of the footprint and the byte after it. -/
theorem test_witness_races : (⟨nine [], some (.f64 0x1000#64 5#64 1 ⟨1#32, 1#32⟩)⟩ : Stepped).flight =
      some (.f64 0x1000#64 5#64 1 ⟨1#32, 1#32⟩) ∧
    (Flight.f64 0x1000#64 5#64 1 ⟨1#32, 1#32⟩).reads 0x1004 = true ∧
    (Flight.f64 0x1000#64 5#64 1 ⟨1#32, 1#32⟩).reads 0x1005 = false := by decide

end Sys2Proof.Tests
end

section
/-! SUPPORT. The operations of the machine keep the legal states (00_scope.md R5, 10_state.md R13, R14, R17, R24). -/

namespace Sys2Proof.Machine

/-! The two registers of a Checksum128 are specified together (10_state.md R13, R14, R24). -/

/-- Every stripe accumulator has both its registers specified or neither. -/
def StripesPaired (S : List Stripe) : Prop := ∀ st ∈ S, st.hi.specified = st.lo.specified

theorem StripesPaired.replicate (n : Nat) {st : Stripe} (h : st.hi.specified = st.lo.specified) :
    StripesPaired (List.replicate n st) := fun _ hmem => List.eq_of_mem_replicate hmem ▸ h

theorem StripesPaired.set_holding {S : List Stripe} (h : StripesPaired S) (i : Nat) (p : Pair 64) :
    StripesPaired (S.set i (Stripe.holding p)) := by
  intro st hmem
  rcases List.mem_or_eq_of_mem_set hmem with hold | rfl
  · exact h st hold
  · rfl

/-- A word that is accumulated leaves a Checksum128 in its stripe and every other stripe alone. -/
theorem accumulateStripe_eq_next {S S' : List Stripe} {i : Nat} {x : Word64}
    (h : accumulateStripe S i x = .next S') : ∃ p, S' = S.set i (Stripe.holding p) := by
  obtain ⟨p, -, hset⟩ := andThen_eq_next.mp h
  cases hset
  exact ⟨acc p x, rfl⟩

theorem dealWords_keeps_paired {n w : Nat} {xs : List Word64} {S S' : List Stripe} (hS : StripesPaired S)
    (h : dealWords n w xs S = .next S') : StripesPaired S' := by
  induction xs generalizing w S with
  | nil => cases h; exact hS
  | cons x xs ih =>
    obtain ⟨S₁, hacc, hrest⟩ := andThen_eq_next.mp h
    obtain ⟨p, rfl⟩ := accumulateStripe_eq_next hacc
    exact ih (hS.set_holding _ p) hrest

/-! Building an engine (00_scope.md R5). -/

theorem params_legal_iff (p : Params) :
    p.legal = true ↔ 1 ≤ p.n.toNat ∧ 8 ≤ p.blockSize.toNat ∧ p.blockSize.toNat % 8 = 0 := by
  simp [Params.legal, and_assoc]

theorem State.instantiate_eq_some {p : Params} {s : State} :
    State.instantiate p = some s ↔ p.legal = true ∧ s = State.ofParams p := by
  rw [State.instantiate, Option.ite_none_right_eq_some, Option.some.injEq, eq_comm (b := s)]

theorem State.ofParams_legal {p : Params} (hp : p.legal = true) : (State.ofParams p).Legal where
  memory := rfl
  parameters := hp
  stripeCount := List.length_replicate
  res128 := rfl
  stripePairs := StripesPaired.replicate p.n.toNat rfl

/-! What the host does (70_reset_and_hazards.md R164): its list and its readings are no part of being legal. -/

variable {s t : State}

theorem State.Legal.setPending (h : s.Legal) (rest : List HostAction) : ({ s with pending := rest } : State).Legal :=
  ⟨h.memory, h.parameters, h.stripeCount, h.res128, h.stripePairs⟩

theorem State.Legal.setOutput (h : s.Legal) (vs : List Word64) : ({ s with output := vs } : State).Legal :=
  ⟨h.memory, h.parameters, h.stripeCount, h.res128, h.stripePairs⟩

theorem State.Legal.hostRead (h : s.Legal) {rsel : Word64} (hs : s.hostRead rsel = .next t) : t.Legal := by
  obtain ⟨v, -, hout⟩ := andThen_eq_next.mp hs
  cases hout
  exact h.setOutput _

/-- A host write changes memory alone, and keeps its canonical form because an address has 64 bits. -/
theorem State.Legal.hostWrite (h : s.Legal) (addr : Word64) (b : Byte) : (s.hostWrite addr.toNat b).Legal where
  memory := s.hostWrite_wf addr.toNat b h.memory addr.isLt
  parameters := by simpa using h.parameters
  stripeCount := by simpa using h.stripeCount
  res128 := by simpa using h.res128
  stripePairs := by simpa using h.stripePairs

/-! What the engine does (10_state.md R25, 42_fletcher64.md R90, 43_fletcher128.md R100, 44_striped128.md R110, R112). -/

theorem State.Legal.resetEngine (h : s.Legal) : s.resetEngine.Legal where
  memory := h.memory
  parameters := h.parameters
  stripeCount := List.length_replicate
  res128 := rfl
  stripePairs := StripesPaired.replicate s.stripeCount rfl

theorem State.Legal.setRes64 (h : s.Legal) (v : Word64) : (s.setRes64 v).Legal :=
  ⟨h.memory, h.parameters, h.stripeCount, h.res128, h.stripePairs⟩

theorem State.Legal.setRes128 (h : s.Legal) (p : Pair 64) : (s.setRes128 p).Legal :=
  ⟨h.memory, h.parameters, h.stripeCount, rfl, h.stripePairs⟩

theorem State.Legal.setStripes (h : s.Legal) {S : List Stripe} (hlen : S.length = s.stripeCount)
    (hS : StripesPaired S) : (s.setStripes S).Legal :=
  ⟨h.memory, h.parameters, hlen, h.res128, hS⟩

theorem State.Legal.clearStripes (h : s.Legal) : s.clearStripes.Legal :=
  h.setStripes List.length_replicate (StripesPaired.replicate s.stripeCount rfl)

theorem State.Legal.exec (h : s.Legal) {i : Instr} (hs : exec i s = .next t) : t.Legal := by
  rcases exec_next_cases hs with ⟨_, _, bytes, -, -, rfl⟩ | ⟨_, _, bytes, -, -, rfl⟩ | ⟨-, rfl⟩ |
    ⟨_, _, bytes, S, -, -, hdeal, hlen, rfl⟩
  · exact h.setRes64 _
  · exact h.setRes128 _
  · exact h.clearStripes
  · exact h.setStripes (hlen.trans h.stripeCount) (dealWords_keeps_paired h.stripePairs hdeal)

theorem State.Legal.step (h : s.Legal) (hs : step s = .next t) : t.Legal := by
  rcases step_cases s with ⟨-, idle⟩ | ⟨d, rest, i, -, -, command⟩ | ⟨d, rest, -, -, illegal⟩ |
    ⟨rsel, rest, -, read⟩ | ⟨a, b, rest, -, write⟩ | ⟨rest, -, reset⟩
  · cases idle.symm.trans hs; exact h
  · exact (h.setPending rest).exec (command.symm.trans hs)
  · cases illegal.symm.trans hs
  · exact (h.setPending rest).hostRead (read.symm.trans hs)
  · cases write.symm.trans hs; exact (h.setPending rest).hostWrite a b
  · cases reset.symm.trans hs; exact (h.setPending rest).resetEngine

/-! The statements. -/

/-- Settles O40: each kind of host action keeps the legal states, and a step is one of them. -/
theorem stepKeepsLegalStates : Obligations.StepKeepsLegalStates := fun _ _ h hs => h.step hs

/-- Settles O44: building succeeds exactly under R5's constraints, and it then answers the reset state of `p`. -/
theorem onlyLegalInstancesAreBuilt : Obligations.OnlyLegalInstancesAreBuilt := by
  intro p
  refine ⟨?_, fun s hs => ?_⟩
  · rw [← params_legal_iff]
    exact ⟨fun ⟨_, hs⟩ => (State.instantiate_eq_some.mp hs).1, fun hp => ⟨_, State.instantiate_eq_some.mpr ⟨hp, rfl⟩⟩⟩
  · obtain ⟨hp, rfl⟩ := State.instantiate_eq_some.mp hs
    exact ⟨State.ofParams_legal hp, rfl, rfl⟩

/-- Settles O41: the reset state is that of the engine's parameters, which are legal whatever is left open. -/
theorem resetStateIsLegal : Obligations.ResetStateIsLegal := State.ofParams_legal Config.params_legal

end Sys2Proof.Machine
end

section
/-! SUPPORT. States that differ only in bits stored under the mark `unspecified` answer every operation alike
(10_state.md R24). One rule per operation; the rules compose along `andThen`. -/

namespace Sys2Proof.Machine

/-! Outcomes of one kind, over any two types of values. -/

variable {α β γ δ : Type}

/-- Two outcomes of one kind: values that `R` relates, the same fault, the same refusal. -/
inductive OutcomeAgree (R : α → β → Prop) : Host.Outcome α Fault Refusal → Host.Outcome β Fault Refusal → Prop where
  | next {a : α} {b : β} (h : R a b) : OutcomeAgree R (.next a) (.next b)
  | fault (f : Fault) : OutcomeAgree R (.fault f) (.fault f)
  | refused (r : Refusal) : OutcomeAgree R (.refused r) (.refused r)

theorem OutcomeAgree.refl (o : Host.Outcome α Fault Refusal) : OutcomeAgree Eq o o := by
  cases o with
  | next a => exact .next rfl
  | fault f => exact .fault f
  | refused r => exact .refused r

theorem OutcomeAgree.andThen {R : α → β → Prop} {Q : γ → δ → Prop} {o : Host.Outcome α Fault Refusal}
    {o' : Host.Outcome β Fault Refusal} {f : α → Host.Outcome γ Fault Refusal} {g : β → Host.Outcome δ Fault Refusal}
    (h : OutcomeAgree R o o') (hfg : ∀ a b, R a b → OutcomeAgree Q (f a) (g b)) :
    OutcomeAgree Q (andThen o f) (andThen o' g) := by
  cases h with
  | next hab => exact hfg _ _ hab
  | fault r => exact .fault r
  | refused r => exact .refused r

/-- The case of equal first outcomes. -/
theorem OutcomeAgree.andThen_same {Q : γ → δ → Prop} (o : Host.Outcome α Fault Refusal)
    {f : α → Host.Outcome γ Fault Refusal} {g : α → Host.Outcome δ Fault Refusal}
    (hfg : ∀ a, OutcomeAgree Q (f a) (g a)) : OutcomeAgree Q (Machine.andThen o f) (Machine.andThen o g) :=
  (OutcomeAgree.refl o).andThen fun a _ hab => hab ▸ hfg a

theorem OutcomeAgree.related {R : State → State → Prop} {o o' : Host.Outcome State Fault Refusal}
    (h : OutcomeAgree R o o') : OutcomeRelated R o o' := by
  cases h with
  | next hab => exact hab
  | fault _ => rfl
  | refused _ => rfl

/-! Stripes. -/

theorem Stripe.Indistinct.refl (st : Stripe) : st.Indistinct st := ⟨rfl, rfl⟩

theorem Stripe.Indistinct.read?_eq {st st' : Stripe} (h : st.Indistinct st') : st.read? = st'.read? := by
  obtain ⟨hhi, hlo⟩ := h
  unfold Reg.Indistinct at hhi hlo
  unfold Stripe.read?
  rw [hhi, hlo]

/-- Two StripeSets no read can tell apart. -/
def StripesIndistinct (S S' : List Stripe) : Prop := List.Forall₂ Stripe.Indistinct S S'

namespace StripesIndistinct

variable {S S' : List Stripe}

theorem replicate {m n : Nat} (h : m = n) (st : Stripe) :
    StripesIndistinct (List.replicate m st) (List.replicate n st) :=
  h ▸ List.forall₂_same.mpr fun st _ => Stripe.Indistinct.refl st

theorem getD (h : StripesIndistinct S S') (i : Nat) :
    (S.getD i Stripe.unspecified).Indistinct (S'.getD i Stripe.unspecified) := by
  induction h generalizing i with
  | nil => exact Stripe.Indistinct.refl _
  | cons hst _ ih =>
    cases i with
    | zero => exact hst
    | succ i => exact ih i

theorem set (h : StripesIndistinct S S') (i : Nat) (st : Stripe) : StripesIndistinct (S.set i st) (S'.set i st) := by
  induction h generalizing i with
  | nil => exact .nil
  | cons hst htail ih =>
    cases i with
    | zero => exact .cons (Stripe.Indistinct.refl st) htail
    | succ i => exact .cons hst (ih i)

theorem accumulateStripe (h : StripesIndistinct S S') (i : Nat) (x : Word64) :
    OutcomeAgree StripesIndistinct (accumulateStripe S i x) (accumulateStripe S' i x) := by
  unfold Machine.accumulateStripe
  rw [(h.getD i).read?_eq]
  exact .andThen_same _ fun p => .next (h.set i _)

theorem dealWords (h : StripesIndistinct S S') (n w : Nat) (xs : List Word64) :
    OutcomeAgree StripesIndistinct (dealWords n w xs S) (dealWords n w xs S') := by
  induction xs generalizing w S S' with
  | nil => exact .next h
  | cons x xs ih => exact (h.accumulateStripe (w % n) x).andThen fun _ _ hS => ih hS (w + 1)

end StripesIndistinct

/-! What the engine reads of its state and of memory. -/

namespace State.Indistinct

variable {s t : State}

theorem stripeCount_eq (h : s.Indistinct t) : s.stripeCount = t.stripeCount := congrArg BitVec.toNat h.cfgN

theorem withholds_eq (h : s.Indistinct t) (a : Nat) : s.withholds a = t.withholds a := by
  unfold State.withholds
  rw [h.withheld]

theorem readByte_eq (h : s.Indistinct t) (a : Nat) : s.readByte a = t.readByte a := by
  unfold State.readByte
  rw [h.withholds_eq, h.mem]

theorem buffer_eq (h : s.Indistinct t) (addr len : Word64) : s.buffer addr len = t.buffer addr len := by
  unfold State.buffer
  rw [State.readBytes_congr fun i _ => h.readByte_eq (addr.toNat + i)]

theorem readRegister?_eq (h : s.Indistinct t) (r : RegName) : s.readRegister? r = t.readRegister? r := by
  cases r with
  | res64 => exact h.res64
  | res128Lo => exact h.res128Lo
  | res128Hi => exact h.res128Hi
  | cfgN => exact congrArg some h.cfgN
  | cfgBs => exact congrArg some h.cfgBs
  | stripeLo i => exact (StripesIndistinct.getD h.stripes i).2
  | stripeHi i => exact (StripesIndistinct.getD h.stripes i).1

theorem readPort_eq (h : s.Indistinct t) (rsel : Word64) : s.readPort rsel = t.readPort rsel := by
  unfold State.readPort
  rw [h.stripeCount_eq, funext h.readRegister?_eq]

/-! What the engine and the host write. -/

theorem setPending (h : s.Indistinct t) (rest : List HostAction) :
    ({ s with pending := rest } : State).Indistinct { t with pending := rest } := { h with pending := rfl }

theorem setRes64 (h : s.Indistinct t) (v : Word64) : (s.setRes64 v).Indistinct (t.setRes64 v) := { h with res64 := rfl }

theorem setRes128 (h : s.Indistinct t) (p : Pair 64) : (s.setRes128 p).Indistinct (t.setRes128 p) :=
  { h with res128Hi := rfl, res128Lo := rfl }

theorem setStripes (h : s.Indistinct t) {S S' : List Stripe} (hS : StripesIndistinct S S') :
    (s.setStripes S).Indistinct (t.setStripes S') := { h with stripes := hS }

theorem clearStripes (h : s.Indistinct t) : s.clearStripes.Indistinct t.clearStripes :=
  h.setStripes (StripesIndistinct.replicate h.stripeCount_eq _)

theorem resetEngine (h : s.Indistinct t) : s.resetEngine.Indistinct t.resetEngine :=
  { h with
    res64 := rfl
    res128Hi := rfl
    res128Lo := rfl
    stripes := StripesIndistinct.replicate h.stripeCount_eq _ }

theorem hostWrite (h : s.Indistinct t) (a : Nat) (b : Byte) : (s.hostWrite a b).Indistinct (t.hostWrite a b) := by
  unfold State.hostWrite
  rw [h.withholds_eq]
  split
  · exact h
  · exact { h with mem := congrArg (Memory.write · a b) h.mem }

/-! Commands, host actions and the step. -/

theorem hostRead (h : s.Indistinct t) (rsel : Word64) :
    OutcomeAgree State.Indistinct (s.hostRead rsel) (t.hostRead rsel) := by
  unfold State.hostRead
  rw [h.readPort_eq]
  exact .andThen_same _ fun v => .next { h with output := congrArg (· ++ [v]) h.output }

theorem execF64 (h : s.Indistinct t) (addr len : Word64) :
    OutcomeAgree State.Indistinct (execF64 addr len s) (execF64 addr len t) := by
  unfold Machine.execF64
  rw [h.buffer_eq]
  exact .andThen_same _ fun bytes => .next (h.setRes64 _)

theorem execF128 (h : s.Indistinct t) (addr len : Word64) :
    OutcomeAgree State.Indistinct (execF128 addr len s) (execF128 addr len t) := by
  unfold Machine.execF128
  rw [h.buffer_eq]
  exact .andThen_same _ fun bytes => .next (h.setRes128 _)

theorem execSupd (h : s.Indistinct t) (addr len : Word64) :
    OutcomeAgree State.Indistinct (execSupd addr len s) (execSupd addr len t) := by
  unfold Machine.execSupd
  rw [h.buffer_eq, h.stripeCount_eq]
  exact .andThen_same _ fun bytes =>
    (StripesIndistinct.dealWords h.stripes _ 0 (wordsOf 64 bytes)).andThen fun _ _ hS => .next (h.setStripes hS)

theorem exec (h : s.Indistinct t) (i : Instr) : OutcomeAgree State.Indistinct (exec i s) (exec i t) := by
  cases i with
  | f64 addr len => exact h.execF64 addr len
  | f128 addr len => exact h.execF128 addr len
  | sclr => exact .next h.clearStripes
  | supd addr len => exact h.execSupd addr len

theorem issue (h : s.Indistinct t) (d : Descriptor) : OutcomeAgree State.Indistinct (issue d s) (issue d t) := by
  unfold Machine.issue
  cases decode d with
  | ok i => exact h.exec i
  | error e => cases e; exact .refused _

theorem perform (h : s.Indistinct t) (a : HostAction) :
    OutcomeAgree State.Indistinct (perform a s) (perform a t) := by
  cases a with
  | command d => exact h.issue d
  | read rsel => exact h.hostRead rsel
  | write addr b => exact .next (h.hostWrite addr.toNat b)
  | reset => exact .next h.resetEngine

theorem step (h : s.Indistinct t) : OutcomeAgree State.Indistinct (step s) (step t) := by
  cases hs : s.pending with
  | nil =>
    rw [step_idle hs, step_idle (h.pending ▸ hs)]
    exact .next h
  | cons a rest =>
    rw [step_action hs, step_action (h.pending ▸ hs)]
    exact (h.setPending rest).perform a

end State.Indistinct

/-- Settles O42: every operation a step is made of reads a register through `Reg.read?` alone, and related states agree
on what that answers. -/
theorem unspecifiedBitsAreInvisible : Obligations.UnspecifiedBitsAreInvisible := fun _ _ h => h.step.related

end Sys2Proof.Machine
end

section
/-! SUPPORT. The engine's own state (10_state.md): reset values, what a command leaves alone, the hardwired
configuration, and the fault of SUPD on a stripe without a value. -/

namespace Sys2Proof.Machine

/-- Settles O8: it is the law of a step that takes a descriptor. -/
theorem stepRunsDecodedCommand : Obligations.StepRunsDecodedCommand := fun _ _ _ _ hp hd => step_command hp hd

/-- Settles O47: every stripe after reset is one of N copies of the unspecified stripe. -/
theorem resetStateIsUnspecified : Obligations.ResetStateIsUnspecified := by
  refine ⟨rfl, rfl, rfl, rfl, rfl, List.length_replicate, fun st hst => ?_, fun _ => rfl, rfl, rfl⟩
  rw [List.eq_of_mem_replicate hst]
  exact ⟨rfl, rfl⟩

/-- Settles O37: a command's next state is the old one with the registers it names set, and every other field is kept. -/
theorem commandsLeaveTheRestAlone : Obligations.CommandsLeaveTheRestAlone := by
  intro i s t h
  rcases exec_next_cases h with ⟨addr, len, _, rfl, -, rfl⟩ | ⟨addr, len, _, rfl, -, rfl⟩ | ⟨rfl, rfl⟩ |
    ⟨addr, len, _, _, rfl, -, -, -, rfl⟩ <;>
    refine ⟨fun _ => rfl, rfl, rfl, rfl, rfl, rfl, rfl, ?_⟩
  · exact ⟨fun ne => absurd rfl (ne addr len), fun _ => ⟨rfl, rfl⟩, fun _ _ => rfl⟩
  · exact ⟨fun _ => rfl, fun ne => absurd rfl (ne addr len), fun _ _ => rfl⟩
  · exact ⟨fun _ => rfl, fun _ => ⟨rfl, rfl⟩, fun ne => absurd rfl ne⟩
  · exact ⟨fun _ => rfl, fun _ => ⟨rfl, rfl⟩, fun _ ne => absurd rfl (ne addr len)⟩

theorem exec_keeps_config {i : Instr} {s t : State} (h : exec i s = .next t) : t.cfgN = s.cfgN ∧ t.cfgBs = s.cfgBs := by
  obtain ⟨-, -, -, hn, hbs, -⟩ := commandsLeaveTheRestAlone i s t h
  exact ⟨hn, hbs⟩

theorem State.hostRead_eq_next {s t : State} {rsel : Word64} :
    s.hostRead rsel = .next t ↔ ∃ v, s.readPort rsel = .next v ∧ t = { s with output := s.output ++ [v] } := by
  rw [State.hostRead, andThen_eq_next]
  simp only [Host.Outcome.next.injEq, eq_comm]

/-- Settles O38: a command keeps the configuration by its frame; no other host action writes it. -/
theorem configurationIsHardwired : Obligations.ConfigurationIsHardwired := by
  intro s t h
  rcases step_cases s with ⟨-, idle⟩ | ⟨d, rest, i, -, -, command⟩ | ⟨d, rest, -, -, illegal⟩ |
    ⟨rsel, rest, -, read⟩ | ⟨a, b, rest, -, write⟩ | ⟨rest, -, reset⟩
  · cases idle.symm.trans h; exact ⟨rfl, rfl⟩
  · have keeps := exec_keeps_config (command.symm.trans h); exact keeps
  · cases illegal.symm.trans h
  · obtain ⟨v, -, rfl⟩ := State.hostRead_eq_next.mp (read.symm.trans h); exact ⟨rfl, rfl⟩
  · cases write.symm.trans h; exact ⟨State.hostWrite_cfgN .., State.hostWrite_cfgBs ..⟩
  · cases reset.symm.trans h; exact ⟨rfl, rfl⟩

/-- On an admitted buffer SUPD answers what dealing the buffer's words answers. -/
theorem execSupd_of_buffer {s : State} {addr len : Word64} {bytes : List Byte} (h : s.Buffer addr len bytes) :
    execSupd addr len s =
      andThen (dealWords s.stripeCount 0 (wordsOf 64 bytes) s.stripes) fun S => .next (s.setStripes S) := by
  rw [execSupd, (State.buffer_eq_next ..).mpr h, andThen_next]

theorem State.Buffer.length_wordsOf {s : State} {addr len : Word64} {bytes : List Byte} (h : s.Buffer addr len bytes)
    (W : Nat) : (wordsOf W bytes).length = nwords (W / 8) len.toNat := by
  rw [wordsOf_length, h.length]

theorem Stripe.isSpecified_eq_false {st : Stripe} :
    st.isSpecified = false ↔ st.hi.specified = false ∨ st.lo.specified = false := by
  rw [Stripe.isSpecified, Bool.and_eq_false_iff]

/-- Settles O27: stripe `i` receives a word because `i < nwords_8(len)`, and dealing a word to it faults. -/
theorem supdFaultsOnUnspecifiedStripe : Obligations.SupdFaultsOnUnspecifiedStripe := by
  intro s addr len bytes i st hbuf hi hw hst hunspec
  have hreceives : dealt s.stripeCount i 0 (wordsOf 64 bytes) ≠ [] :=
    (dealt_ne_nil hi _).mpr (hbuf.length_wordsOf 64 ▸ hw)
  have hread : (s.stripes.getD i Stripe.unspecified).isSpecified = false := by
    rw [List.getD_eq_getElem?_getD, hst]
    exact Stripe.isSpecified_eq_false.mpr hunspec
  calc exec (.supd addr len) s = _ := execSupd_of_buffer hbuf
    _ = .fault .unspecifiedRegisterRead := by rw [dealWords_fault _ 0 _ hreceives hread]; rfl

end Sys2Proof.Machine
end

section
/-! SUPPORT. The host's register read port (10_state.md R19): which register a select number names, and what reading it
answers. -/

namespace Sys2Proof.Machine

/-- A number equal to a register's select number names that register, a stripe's only below N. -/
theorem selectedRegister_of_toNat_eq {n : Nat} {rsel : Word64} {r : RegName} (h : rsel.toNat = r.select)
    (hi : ∀ i, r = .stripeLo i ∨ r = .stripeHi i → i < n) : selectedRegister n rsel = some r := by
  have hrsel : BitVec.ofNat 64 r.select = rsel := by rw [← h, BitVec.ofNat_toNat, BitVec.setWidth_eq]
  rw [← hrsel]
  exact selectedRegister_select n r (h ▸ rsel.isLt) hi

theorem selectedRegister_stripeLo {n i : Nat} {rsel : Word64} (hi : i < n) (h : rsel.toNat = 0x100 + 2 * i) :
    selectedRegister n rsel = some (.stripeLo i) :=
  selectedRegister_of_toNat_eq h (by rintro j (hj | hj) <;> cases hj; exact hi)

theorem selectedRegister_stripeHi {n i : Nat} {rsel : Word64} (hi : i < n) (h : rsel.toNat = 0x100 + 2 * i + 1) :
    selectedRegister n rsel = some (.stripeHi i) :=
  selectedRegister_of_toNat_eq h (by rintro j (hj | hj) <;> cases hj; exact hi)

/-- The numbers between CFG_BS and `S[0].lo`, and those after `S[N-1].hi`, name no register. -/
theorem selectedRegister_eq_none {n : Nat} {rsel : Word64}
    (h : (0x05 ≤ rsel.toNat ∧ rsel.toNat < 0x100) ∨ 0x100 + 2 * n ≤ rsel.toNat) : selectedRegister n rsel = none := by
  unfold selectedRegister
  dsimp only
  rw [if_neg (by omega), if_neg (by omega), if_neg (by omega), if_neg (by omega), if_neg (by omega), if_neg (by omega)]

theorem State.readRegister?_stripeLo {s : State} {i : Nat} {st : Stripe} (h : s.stripes[i]? = some st) :
    s.readRegister? (.stripeLo i) = st.lo.read? := by
  rw [State.readRegister?, List.getD_eq_getElem?_getD, h, Option.getD_some]

theorem State.readRegister?_stripeHi {s : State} {i : Nat} {st : Stripe} (h : s.stripes[i]? = some st) :
    s.readRegister? (.stripeHi i) = st.hi.read? := by
  rw [State.readRegister?, List.getD_eq_getElem?_getD, h, Option.getD_some]

theorem Reg.read?_eq_of_eq_holding {r : Reg} {v : Word64} (h : r = ⟨v, true⟩) : r.read? = some v := by rw [h]; rfl

variable {s : State} {rsel : Word64} {rest : List HostAction} {r : RegName}

/-- The read port does not depend on what waits at the host. -/
theorem State.readPort_setPending (s : State) (rest : List HostAction) (rsel : Word64) :
    State.readPort { s with pending := rest } rsel = s.readPort rsel := rfl

theorem step_read_eq (hp : s.pending = .read rsel :: rest) :
    step s = andThen (s.readPort rsel) fun v => .next { s with pending := rest, output := s.output ++ [v] } := by
  rw [step_read hp, State.hostRead, State.readPort_setPending]

/-- A read of a register that holds a value hands it to the host. -/
theorem step_read_value {v : Word64} (hp : s.pending = .read rsel :: rest)
    (hr : selectedRegister s.stripeCount rsel = some r) (hv : s.readRegister? r = some v) :
    step s = .next { s with pending := rest, output := s.output ++ [v] } := by
  rw [step_read_eq hp, State.readPort, hr, orStop_some, andThen_next, hv, orStop_some, andThen_next]

/-- A read of a register that holds none faults (10_state.md R24). -/
theorem step_read_unspecified (hp : s.pending = .read rsel :: rest)
    (hr : selectedRegister s.stripeCount rsel = some r) (hv : s.readRegister? r = none) :
    step s = .fault .unspecifiedRegisterRead := by
  rw [step_read_eq hp, State.readPort, hr, orStop_some, andThen_next, hv, orStop_none, andThen_fault]

theorem step_read_badSelect (hp : s.pending = .read rsel :: rest) (hr : selectedRegister s.stripeCount rsel = none) :
    step s = .refused .badRegisterSelect := by
  rw [step_read_eq hp, State.readPort, hr, orStop_none, andThen_refused, andThen_refused]

/-- Settles O45: each select number names its register, and the register named holds `v`. -/
theorem readPortReturnsRegister : Obligations.ReadPortReturnsRegister := by
  intro s rsel rest v hp h
  have named : ∃ r, selectedRegister s.stripeCount rsel = some r ∧ s.readRegister? r = some v := by
    rcases h with ⟨hn, hv⟩ | ⟨hn, hv⟩ | ⟨hn, hv⟩ | ⟨hn, hv⟩ | ⟨hn, hv⟩ | ⟨i, st, hi, hst, ⟨hn, hv⟩ | ⟨hn, hv⟩⟩
    · exact ⟨.res64, selectedRegister_of_toNat_eq hn nofun, Reg.read?_eq_of_eq_holding hv⟩
    · exact ⟨.res128Lo, selectedRegister_of_toNat_eq hn nofun, Reg.read?_eq_of_eq_holding hv⟩
    · exact ⟨.res128Hi, selectedRegister_of_toNat_eq hn nofun, Reg.read?_eq_of_eq_holding hv⟩
    · exact ⟨.cfgN, selectedRegister_of_toNat_eq hn nofun, congrArg some hv⟩
    · exact ⟨.cfgBs, selectedRegister_of_toNat_eq hn nofun, congrArg some hv⟩
    · exact ⟨.stripeLo i, selectedRegister_stripeLo hi hn,
        (State.readRegister?_stripeLo hst).trans (Reg.read?_eq_of_eq_holding hv)⟩
    · exact ⟨.stripeHi i, selectedRegister_stripeHi hi hn,
        (State.readRegister?_stripeHi hst).trans (Reg.read?_eq_of_eq_holding hv)⟩
  obtain ⟨r, hr, hv⟩ := named
  exact step_read_value hp hr hv

/-- Settles O46: the numbers in the two gaps name no register, and an unspecified register has nothing to read. -/
theorem readPortStops : Obligations.ReadPortStops := by
  intro s rsel rest hp
  refine ⟨fun h => step_read_badSelect hp (selectedRegister_eq_none h), fun h => ?_⟩
  have named : ∃ r, selectedRegister s.stripeCount rsel = some r ∧ s.readRegister? r = none := by
    rcases h with ⟨hn, hv⟩ | ⟨hn, hv⟩ | ⟨hn, hv⟩ | ⟨i, st, hi, hst, ⟨hn, hv⟩ | ⟨hn, hv⟩⟩
    · exact ⟨.res64, selectedRegister_of_toNat_eq hn nofun, (Reg.read?_eq_none _).mpr hv⟩
    · exact ⟨.res128Lo, selectedRegister_of_toNat_eq hn nofun, (Reg.read?_eq_none _).mpr hv⟩
    · exact ⟨.res128Hi, selectedRegister_of_toNat_eq hn nofun, (Reg.read?_eq_none _).mpr hv⟩
    · exact ⟨.stripeLo i, selectedRegister_stripeLo hi hn,
        (State.readRegister?_stripeLo hst).trans ((Reg.read?_eq_none _).mpr hv)⟩
    · exact ⟨.stripeHi i, selectedRegister_stripeHi hi hn,
        (State.readRegister?_stripeHi hst).trans ((Reg.read?_eq_none _).mpr hv)⟩
  obtain ⟨r, hr, hv⟩ := named
  exact step_read_unspecified hp hr hv

end Sys2Proof.Machine
end

section
/-! SUPPORT. The stepped view of SUPD (10_state.md R18, 44_striped128.md R112): reading one word from memory, one word
step, and all of them. -/

namespace Sys2Proof.Machine

variable {s : State} {addr len : Word64} {bytes : List Byte}

/-- Memory holds every part of what it holds. -/
theorem State.Holds.take_drop {a : Nat} (h : s.Holds a bytes) (k n : Nat) : s.Holds (a + k) ((bytes.drop k).take n) := by
  intro i hi
  rw [List.length_take, List.length_drop] at hi
  rw [List.getElem_take, List.getElem_drop, Nat.add_assoc]
  exact h (k + i) (by omega)

/-- Reading word `k` of an admitted buffer from memory alone gives the buffer's word `k` (41_tail_padder.md R82). -/
theorem State.Buffer.readWord (h : s.Buffer addr len bytes) (W k : Nat) :
    s.readWord W addr len k = .next (wordAt W bytes k) := by
  have hslice : s.readBytes (addr.toNat + W / 8 * k) (wordBytes (W / 8) len.toNat k) =
      some (wordSlice (W / 8) bytes k) := by
    rw [State.readBytes_eq_some, wordSlice_length, h.length]
    exact ⟨rfl, h.holds.take_drop _ _⟩
  rw [State.readWord, hslice]
  rfl

/-- The buffer does not depend on the stripes. -/
theorem State.Buffer.setStripes (h : s.Buffer addr len bytes) (S : List Stripe) :
    (s.setStripes S).Buffer addr len bytes := ⟨h.fits, h.length, h.holds⟩

theorem wordStep_supd (s : State) (addr len : Word64) (w : Nat) :
    wordStep ⟨s, some (.supd addr len w)⟩ =
      if w < nwords 8 len.toNat then
        andThen (s.readWord 64 addr len w) fun x =>
          andThen (accumulateStripe s.stripes (w % s.stripeCount) x) fun S =>
            .next ⟨s.setStripes S, some (.supd addr len (w + 1))⟩
      else .next ⟨s, none⟩ := rfl

/-- While words are left, a word step of SUPD accumulates the next one into its stripe. -/
theorem wordStep_supd_word (h : s.Buffer addr len bytes) {w : Nat} (hw : w < (wordsOf 64 bytes).length) :
    wordStep ⟨s, some (.supd addr len w)⟩ =
      andThen (accumulateStripe s.stripes (w % s.stripeCount) (wordsOf 64 bytes)[w]) fun S =>
        .next ⟨s.setStripes S, some (.supd addr len (w + 1))⟩ := by
  rw [wordStep_supd, if_pos (h.length_wordsOf 64 ▸ hw), h.readWord 64 w, andThen_next, wordsOf_getElem]

/-- With no word left, a word step of SUPD completes it. -/
theorem wordStep_supd_done (h : s.Buffer addr len bytes) {w : Nat} (hw : (wordsOf 64 bytes).length ≤ w) :
    wordStep ⟨s, some (.supd addr len w)⟩ = .next ⟨s, none⟩ := by
  rw [wordStep_supd, if_neg (Nat.not_lt.mpr (h.length_wordsOf 64 ▸ hw))]

/-- From word `w` on, the word steps of SUPD deal the rest of the buffer's words. -/
theorem wordSteps_supd {xs : List Word64} {w : Nat} {S : List Stripe} (h : s.Buffer addr len bytes)
    (hxs : (wordsOf 64 bytes).drop w = xs) (hdeal : dealWords s.stripeCount w xs s.stripes = .next S) :
    wordSteps (xs.length + 1) ⟨s, some (.supd addr len w)⟩ = .next ⟨s.setStripes S, none⟩ := by
  induction xs generalizing w s with
  | nil =>
    cases hdeal
    rw [wordSteps, wordStep_supd_done h (List.drop_eq_nil_iff.mp hxs)]
    rfl
  | cons x xs ih =>
    have hw : w < (wordsOf 64 bytes).length := by
      by_contra hge
      rw [List.drop_of_length_le (Nat.not_lt.mp hge)] at hxs
      cases hxs
    rw [List.drop_eq_getElem_cons hw, List.cons.injEq] at hxs
    obtain ⟨rfl, hrest⟩ := hxs
    obtain ⟨S₁, hacc, hdeal₁⟩ := andThen_eq_next.mp hdeal
    calc wordSteps (xs.length + 1 + 1) ⟨s, some (.supd addr len w)⟩
        = wordSteps (xs.length + 1) ⟨s.setStripes S₁, some (.supd addr len (w + 1))⟩ := by
          rw [wordSteps, wordStep_supd_word h hw, hacc, andThen_next, andThen_next]
      _ = .next ⟨s.setStripes S, none⟩ := ih (h.setStripes S₁) hrest hdeal₁

theorem beginCommand_supd (h : s.Buffer addr len bytes) :
    beginCommand (.supd addr len) s = .next ⟨s, some (.supd addr len 0)⟩ := by
  rw [beginCommand, (State.buffer_eq_next ..).mpr h, andThen_next]

/-- Settles O54: the word steps deal the same words in the same order as the atomic command. -/
theorem wordStepsComputeSupd : Obligations.WordStepsComputeSupd := by
  intro s t addr len hexec
  rcases execSupd_cases addr len s with ⟨-, e⟩ | ⟨-, -, e⟩ | ⟨bytes, hbuf, ⟨S, hdeal, -, e⟩ | ⟨-, e⟩⟩ <;>
    cases e.symm.trans hexec
  refine ⟨_, beginCommand_supd hbuf, ?_⟩
  rw [← hbuf.length_wordsOf 64]
  exact wordSteps_supd hbuf List.drop_zero hdeal

end Sys2Proof.Machine
end

section
/-! SUPPORT. Buffer memory as the engine and the host see it (20_memory.md): how words are cut from bytes, what a
command reads of memory, and which host action changes a byte. -/

namespace Sys2Proof.Machine

/-! Words of 32 and of 64 bits over the same bytes (20_memory.md R46). -/

/-- The bytes of a word of twice the width are those of its two halves, the lower half first. -/
theorem wordSlice_two_mul (B : Nat) (bytes : List Byte) (k : Nat) :
    wordSlice (2 * B) bytes k = wordSlice B bytes (2 * k) ++ wordSlice B bytes (2 * k + 1) := by
  have hsecond : bytes.drop (B * (2 * k + 1)) = (bytes.drop (B * (2 * k))).drop B := by rw [List.drop_drop]; rfl
  rw [wordSlice_eq_take, wordSlice_eq_take, wordSlice_eq_take, hsecond, ← List.take_add, Nat.two_mul,
    show (B + B) * k = B * (2 * k) by ring]

/-- A word that lies whole in the buffer has all of its bytes. -/
theorem wordSlice_length_of_full {B : Nat} {bytes : List Byte} {k : Nat} (h : B * k + B ≤ bytes.length) :
    (wordSlice B bytes k).length = B := by
  rw [wordSlice_length, wordBytes]
  omega

theorem wordAt_64_toNat {bytes : List Byte} {k : Nat} (h : 4 * (2 * k) + 4 ≤ bytes.length) :
    (wordAt 64 bytes k).toNat = (wordAt 32 bytes (2 * k)).toNat + 2 ^ 32 * (wordAt 32 bytes (2 * k + 1)).toNat := by
  rw [wordAt_toNat (by decide), wordAt_toNat (by decide), wordAt_toNat (by decide)]
  have hsplit : wordSlice 8 bytes k = wordSlice 4 bytes (2 * k) ++ wordSlice 4 bytes (2 * k + 1) :=
    wordSlice_two_mul 4 bytes k
  rw [hsplit, littleEndian_append, wordSlice_length_of_full h]
  rfl

/-- Settles O20: a 64-bit word's bytes are those of two 32-bit words; and the 32-bit words 0, 2, 0 and 1, 0, 1 have one
sum and one sum of running sums, but make up different 64-bit words. -/
theorem mixedWidthWords : Obligations.MixedWidthWords := by
  refine ⟨fun bytes k h => wordAt_64_toNat (by omega), [0, 0, 0, 0, 2, 0, 0, 0, 0, 0, 0, 0],
    [1, 0, 0, 0, 0, 0, 0, 0, 1, 0, 0, 0], ?_, ?_⟩
  · decide
  · decide

/-! A command and its buffer: what it answers is a function of what the buffer check answers. -/

variable {s t : State} {addr len : Word64} {i : Instr}

theorem exec_f64_eq (addr len : Word64) (s : State) :
    exec (.f64 addr len) s =
      andThen (s.buffer addr len) fun bytes => .next (s.setRes64 (pack (fold (wordsOf 32 bytes)))) :=
  rfl

theorem exec_f128_eq (addr len : Word64) (s : State) :
    exec (.f128 addr len) s = andThen (s.buffer addr len) fun bytes => .next (s.setRes128 (fold (wordsOf 64 bytes))) :=
  rfl

theorem exec_supd_eq (addr len : Word64) (s : State) :
    exec (.supd addr len) s = andThen (s.buffer addr len) fun bytes =>
      andThen (dealWords s.stripeCount 0 (wordsOf 64 bytes) s.stripes) fun S => .next (s.setStripes S) :=
  rfl

/-- The empty buffer is admitted at every address (20_memory.md R33). -/
theorem State.buffer_zero (s : State) (addr : Word64) : s.buffer addr 0#64 = .next [] :=
  (State.buffer_eq_next ..).mpr ⟨addr.isLt.le, rfl, nofun⟩

/-- Settles O28: a buffer that wraps fails the first check, and the empty one passes both and holds no word to deal. -/
theorem wrappingBufferIsRefused : Obligations.WrappingBufferIsRefused := by
  refine ⟨fun s addr len hwraps => ?_, fun s addr => ?_⟩
  · have hbuf := s.buffer_of_wraps hwraps
    exact ⟨by rw [exec_f64_eq, hbuf, andThen_refused], by rw [exec_f128_eq, hbuf, andThen_refused],
      by rw [exec_supd_eq, hbuf, andThen_refused]⟩
  · have hbuf := s.buffer_zero addr
    exact ⟨⟨_, by rw [exec_f64_eq, hbuf, andThen_next]⟩, ⟨_, by rw [exec_f128_eq, hbuf, andThen_next]⟩,
      ⟨s.setStripes s.stripes, by rw [exec_supd_eq, hbuf]; rfl⟩⟩

/-! What a command answers depends on the registers and its footprint (20_memory.md R35). -/

/-- The buffer check looks at the footprint alone. -/
theorem State.buffer_congr (h : ∀ a, addr.toNat ≤ a → a < addr.toNat + len.toNat → s.readByte a = t.readByte a) :
    s.buffer addr len = t.buffer addr len := by
  unfold State.buffer
  rw [State.readBytes_congr fun i hi => h (addr.toNat + i) (by omega) (by omega)]

namespace State.SameRegisters

theorem stripeCount_eq (h : s.SameRegisters t) : t.stripeCount = s.stripeCount := congrArg BitVec.toNat h.cfgN

theorem setRes64 (h : s.SameRegisters t) (v : Word64) : (s.setRes64 v).SameRegisters (t.setRes64 v) :=
  { h with res64 := rfl }

theorem setRes128 (h : s.SameRegisters t) (p : Pair 64) : (s.setRes128 p).SameRegisters (t.setRes128 p) :=
  { h with res128Hi := rfl, res128Lo := rfl }

theorem setStripes (h : s.SameRegisters t) (S : List Stripe) : (s.setStripes S).SameRegisters (t.setStripes S) :=
  { h with stripes := rfl }

theorem clearStripes (h : s.SameRegisters t) : s.clearStripes.SameRegisters t.clearStripes :=
  { h with stripes := by rw [State.clearStripes_stripes, State.clearStripes_stripes, h.stripeCount_eq] }

/-- What waits at the host is no register of the engine. -/
theorem setPending (s : State) (rest : List HostAction) : s.SameRegisters { s with pending := rest } :=
  ⟨rfl, rfl, rfl, rfl, rfl, rfl⟩

/-- A host write touches no register of the engine. -/
theorem hostWrite (h : s.SameRegisters t) (a : Nat) (b : Byte) : s.SameRegisters (t.hostWrite a b) := by
  rw [State.hostWrite_eq]
  exact { h with }

end State.SameRegisters

/-- Settles O30: the buffer check answers alike in both states, and every command goes on from the same bytes and the
same registers. -/
theorem outcomeDependsOnFootprint : Obligations.OutcomeDependsOnFootprint := by
  intro i s t h hfoot
  apply OutcomeAgree.related
  cases i with
  | f64 addr len =>
    rw [exec_f64_eq, exec_f64_eq, State.buffer_congr (hfoot addr len (.inl rfl))]
    exact .andThen_same _ fun _ => .next (h.setRes64 _)
  | f128 addr len =>
    rw [exec_f128_eq, exec_f128_eq, State.buffer_congr (hfoot addr len (.inr (.inl rfl)))]
    exact .andThen_same _ fun _ => .next (h.setRes128 _)
  | sclr => exact .next h.clearStripes
  | supd addr len =>
    rw [exec_supd_eq, exec_supd_eq, State.buffer_congr (hfoot addr len (.inr (.inr rfl))), h.stripes, h.stripeCount_eq]
    exact .andThen_same _ fun _ => .andThen_same _ fun S => .next (h.setStripes S)

/-! A byte changes by a host write to it, and by nothing else (20_memory.md R36, R37, R41). -/

theorem exec_readByte (h : exec i s = .next t) (x : Nat) : t.readByte x = s.readByte x := by
  obtain ⟨hread, -⟩ := commandsLeaveTheRestAlone i s t h
  exact hread x

/-- Reading a byte does not depend on what waits at the host. -/
theorem State.readByte_setPending (s : State) (rest : List HostAction) (x : Nat) :
    State.readByte { s with pending := rest } x = s.readByte x := rfl

/-- Settles O39: of the kinds of step only a host write touches a byte's reading, and only that of its own address. -/
theorem memoryChangesOnlyByHostWrite : Obligations.MemoryChangesOnlyByHostWrite := by
  intro s t x h hne
  rcases step_cases s with ⟨-, idle⟩ | ⟨d, rest, i, -, -, command⟩ | ⟨d, rest, -, -, illegal⟩ |
    ⟨rsel, rest, -, read⟩ | ⟨a, b, rest, hp, write⟩ | ⟨rest, -, reset⟩
  · cases idle.symm.trans h; exact absurd rfl hne
  · exact absurd (exec_readByte (command.symm.trans h) x) hne
  · cases illegal.symm.trans h
  · obtain ⟨v, -, rfl⟩ := State.hostRead_eq_next.mp (read.symm.trans h); exact absurd rfl hne
  · cases write.symm.trans h
    rw [State.readByte_hostWrite] at hne ⊢
    split at hne
    · next hxa => exact ⟨a, b, rest, hp, hxa.2, if_pos hxa⟩
    · exact absurd rfl hne
  · cases reset.symm.trans h; exact absurd rfl hne

/-- A withheld address takes no write (log entry 6). -/
theorem State.hostWrite_of_withholds {a : Nat} (h : s.withholds a = true) (b : Byte) : s.hostWrite a b = s := if_pos h

theorem State.readByte_hostWrite_same {a : Nat} (h : s.withholds a = false) (b : Byte) :
    (s.hostWrite a b).readByte a = some b := by
  rw [State.readByte_hostWrite, if_pos ⟨h, rfl⟩]

theorem State.readByte_hostWrite_other {a x : Nat} (h : x ≠ a) (b : Byte) :
    (s.hostWrite a b).readByte x = s.readByte x := by
  rw [State.readByte_hostWrite, if_neg fun hxa => h hxa.2]

/-- Settles O49: the step is the host write, and a byte reads after it by the laws of read after write. -/
theorem hostWriteIsReadBack : Obligations.HostWriteIsReadBack := by
  intro s a b rest hp
  refine ⟨_, step_write hp, (State.SameRegisters.setPending s rest).hostWrite a.toNat b, State.hostWrite_pending ..,
    State.hostWrite_output .., fun hfree => ?_, fun hwithheld => ?_, fun x hx => ?_⟩
  · exact State.readByte_hostWrite_same (s := { s with pending := rest }) hfree b
  · rw [State.hostWrite_of_withholds (s := { s with pending := rest }) hwithheld b]
  · exact State.readByte_hostWrite_other hx b

end Sys2Proof.Machine
end

section
/-! SUPPORT. A host write between two word steps (20_memory.md R40, 70_reset_and_hazards.md R159): outside the footprint
of the command in flight it commutes with everything a word step does. -/

namespace Sys2Proof.Machine

theorem andThen_assoc {α β γ : Type} (o : Host.Outcome α Fault Refusal) (f : α → Host.Outcome β Fault Refusal)
    (g : β → Host.Outcome γ Fault Refusal) : andThen (andThen o f) g = andThen o fun a => andThen (f a) g := by
  cases o with
  | next a => rfl
  | fault r => rfl
  | refused r => rfl

variable {s : State} {addr len : Word64} {a : Nat} {f : Flight}

/-! The engine's reads and writes beside a host write. -/

theorem inFootprint_eq_true :
    inFootprint addr len a = true ↔ addr.toNat ≤ a ∧ a < addr.toNat + len.toNat := by
  simp [inFootprint]

/-- The bytes of every word of a buffer lie in its footprint. -/
theorem wordByte_inFootprint {B k i : Nat} (hi : i < wordBytes B len.toNat k) :
    inFootprint addr len (addr.toNat + B * k + i) = true := by
  rw [wordBytes] at hi
  rw [inFootprint_eq_true]
  omega

/-- A write outside the footprint does not change the word that is read next. -/
theorem State.readWord_hostWrite (h : inFootprint addr len a = false) (W k : Nat) (b : Byte) :
    (s.hostWrite a b).readWord W addr len k = s.readWord W addr len k := by
  unfold State.readWord
  rw [State.readBytes_congr fun i hi => State.readByte_hostWrite_other (fun hxa => ?_) b]
  rw [← hxa, wordByte_inFootprint hi] at h
  cases h

theorem State.setRes64_hostWrite (s : State) (a : Nat) (b : Byte) (v : Word64) :
    (s.hostWrite a b).setRes64 v = (s.setRes64 v).hostWrite a b :=
  apply_ite (fun t : State => t.setRes64 v) ..

theorem State.setRes128_hostWrite (s : State) (a : Nat) (b : Byte) (p : Pair 64) :
    (s.hostWrite a b).setRes128 p = (s.setRes128 p).hostWrite a b :=
  apply_ite (fun t : State => t.setRes128 p) ..

theorem State.setStripes_hostWrite (s : State) (a : Nat) (b : Byte) (S : List Stripe) :
    (s.hostWrite a b).setStripes S = (s.setStripes S).hostWrite a b :=
  apply_ite (fun t : State => t.setStripes S) ..

/-! The host write of the stepped view. -/

theorem Stepped.hostWrite_idle (s : State) (a : Nat) (b : Byte) :
    Stepped.hostWrite ⟨s, none⟩ a b = .next ⟨s.hostWrite a b, none⟩ := rfl

theorem Stepped.hostWrite_race (h : f.reads a = true) (s : State) (b : Byte) :
    Stepped.hostWrite ⟨s, some f⟩ a b = .refused .bufferRace := if_pos h

theorem Stepped.hostWrite_outside (h : f.reads a = false) (s : State) (b : Byte) :
    Stepped.hostWrite ⟨s, some f⟩ a b = .next ⟨s.hostWrite a b, some f⟩ := if_neg (by rw [h]; decide)

/-- When what an outcome goes on to is a command in flight, a write outside its footprint is the write to its state. -/
theorem Stepped.andThen_hostWrite_outside {α : Type} {o : Host.Outcome α Fault Refusal} {σ : α → State} {φ : α → Flight}
    (h : ∀ x, (φ x).reads a = false) (b : Byte) :
    (andThen (andThen o fun x => .next (⟨σ x, some (φ x)⟩ : Stepped)) fun t => t.hostWrite a b) =
      andThen o fun x => .next (⟨(σ x).hostWrite a b, some (φ x)⟩ : Stepped) := by
  rw [andThen_assoc]
  congr 1; funext x
  rw [andThen_next, Stepped.hostWrite_outside (h x)]

/-! The word steps of F64 and F128 (42_fletcher64.md R94, 43_fletcher128.md R103). -/

theorem wordStep_f64 (s : State) (addr len : Word64) (w : Nat) (wa : Pair 32) :
    wordStep ⟨s, some (.f64 addr len w wa)⟩ =
      if w < nwords 4 len.toNat then
        andThen (s.readWord 32 addr len w) fun x => .next ⟨s, some (.f64 addr len (w + 1) (acc wa x))⟩
      else .next ⟨s.setRes64 (pack wa), none⟩ := rfl

theorem wordStep_f128 (s : State) (addr len : Word64) (w : Nat) (wa : Pair 64) :
    wordStep ⟨s, some (.f128 addr len w wa)⟩ =
      if w < nwords 8 len.toNat then
        andThen (s.readWord 64 addr len w) fun x => .next ⟨s, some (.f128 addr len (w + 1) (acc wa x))⟩
      else .next ⟨s.setRes128 wa, none⟩ := rfl

/-- After a write outside the footprint a word step answers what it would have answered, with the byte written. -/
theorem wordStep_hostWrite (h : f.reads a = false) (s : State) (b : Byte) :
    wordStep ⟨s.hostWrite a b, some f⟩ = andThen (wordStep ⟨s, some f⟩) fun t => t.hostWrite a b := by
  cases f with
  | f64 addr len w wa =>
    rw [wordStep_f64, wordStep_f64, State.readWord_hostWrite h]
    split
    · rw [Stepped.andThen_hostWrite_outside]
      exact fun _ => h
    · rw [andThen_next, Stepped.hostWrite_idle, State.setRes64_hostWrite]
  | f128 addr len w wa =>
    rw [wordStep_f128, wordStep_f128, State.readWord_hostWrite h]
    split
    · rw [Stepped.andThen_hostWrite_outside]
      exact fun _ => h
    · rw [andThen_next, Stepped.hostWrite_idle, State.setRes128_hostWrite]
  | supd addr len w =>
    rw [wordStep_supd, wordStep_supd, State.readWord_hostWrite h, State.hostWrite_stripes, State.hostWrite_stripeCount]
    split
    · rw [andThen_assoc]
      congr 1; funext x
      simp only [State.setStripes_hostWrite]
      rw [Stepped.andThen_hostWrite_outside]
      exact fun _ => h
    · rw [andThen_next, Stepped.hostWrite_idle]

/-- Settles O55: inside the footprint a host write is the race; outside it, it commutes with the word step. -/
theorem racesAreRefused : Obligations.RacesAreRefused := by
  rintro ⟨s, flight⟩ f a b rfl
  refine ⟨fun hin => Stepped.hostWrite_race hin s b, fun hout => ?_⟩
  rw [Stepped.hostWrite_outside hout, andThen_next, wordStep_hostWrite hout]

end Sys2Proof.Machine
end

section
/-! SUPPORT. The encoding (30_encoding.md): what the decoder answers by the `op` field, the encoder and the rows of the
opcode table beside it, the assembler's lines, and the order of a command's checks. -/

namespace Sys2Proof

variable {d : Descriptor} {i : Instr}

/-! The op value of a command. -/

/-- The `op` value of a command's row (30_encoding.md R52). -/
def Instr.opcode : Instr → BitVec 8
  | .f64 _ _ => 0x01#8
  | .f128 _ _ => 0x02#8
  | .sclr => 0x03#8
  | .supd _ _ => 0x04#8

/-- The command of the same row with these operands; SCLR has none (30_encoding.md R55). -/
def Instr.withOperands (addr len : Word64) : Instr → Instr
  | .f64 _ _ => .f64 addr len
  | .f128 _ _ => .f128 addr len
  | .sclr => .sclr
  | .supd _ _ => .supd addr len

/-! What the decoder answers. -/

/-- The decoder as a function of the descriptor's bits as numbers (30_encoding.md R50, R56). -/
theorem decode_eq (d : Descriptor) :
    decode d =
      if d.toNat / 2 ^ 128 = 1 then .ok (.f64 (addrField d) (lenField d))
      else if d.toNat / 2 ^ 128 = 2 then .ok (.f128 (addrField d) (lenField d))
      else if d.toNat / 2 ^ 128 = 3 then .ok .sclr
      else if d.toNat / 2 ^ 128 = 4 then .ok (.supd (addrField d) (lenField d))
      else .error .illegalOpcode := by
  unfold decode
  simp only [← BitVec.toNat_inj, opField_toNat]
  rfl

/-- A command comes from a descriptor with its `op` value. -/
theorem opField_of_decode (h : decode d = .ok i) : opField d = i.opcode := by
  rcases decode_cases d with ⟨hop, e⟩ | ⟨hop, e⟩ | ⟨hop, e⟩ | ⟨hop, e⟩ | ⟨-, -, -, -, e⟩ <;> cases e.symm.trans h <;>
    exact hop

/-- A descriptor with a command's `op` value decodes to that command, its operands the descriptor's fields. -/
theorem decode_of_opField (h : opField d = i.opcode) :
    decode d = .ok (i.withOperands (addrField d) (lenField d)) := by
  unfold decode
  cases i <;> rw [h] <;> rfl

theorem decode_descriptor (i : Instr) (addr len : Word64) :
    decode (descriptor i.opcode addr len) = .ok (i.withOperands addr len) := by
  rw [decode_of_opField (opField_descriptor ..), addrField_descriptor, lenField_descriptor]

theorem decode_eq_error_iff :
    decode d = .error .illegalOpcode ↔
      d.toNat / 2 ^ 128 ≠ 1 ∧ d.toNat / 2 ^ 128 ≠ 2 ∧ d.toNat / 2 ^ 128 ≠ 3 ∧ d.toNat / 2 ^ 128 ≠ 4 := by
  rw [decode_eq]
  generalize d.toNat / 2 ^ 128 = op
  split_ifs <;> simp [*]

theorem exists_decode_eq_ok_iff : (∃ i, decode d = .ok i) ↔ decode d ≠ .error .illegalOpcode := by
  cases decode d with
  | ok i => simp
  | error e => cases e; simp

/-- Settles O6: the decoder's fields are the bits of the descriptor as numbers. -/
theorem decoderReturnsWholeFields : Obligations.DecoderReturnsWholeFields := fun d =>
  ⟨addrField d, lenField d, addrField_toNat d, lenField_toNat d, decode_eq d⟩

/-! The encoder. -/

/-- Settles O2: a command's encoding is laid out from its `op` value and its operands, and the decoder reads them back. -/
theorem decodeOfEncode : Obligations.DecodeOfEncode := by
  intro i
  cases i with
  | f64 addr len => exact decode_descriptor (.f64 addr len) addr len
  | f128 addr len => exact decode_descriptor (.f128 addr len) addr len
  | sclr => exact decode_descriptor .sclr 0#64 0#64
  | supd addr len => exact decode_descriptor (.supd addr len) addr len

/-- Only SCLR has other descriptors than its encoding (30_encoding.md R55). -/
theorem eq_encode_of_decode (h : decode d = .ok i) (hi : i ≠ .sclr) : d = encode i := by
  have hd := decode_of_opField (opField_of_decode h)
  rw [← descriptor_fields d, opField_of_decode h]
  cases i with
  | sclr => exact absurd rfl hi
  | _ => cases h.symm.trans hd; rfl

/-- Settles O5: a descriptor of a command other than SCLR is that command's one encoding. -/
theorem onlySclrIgnoresFields : Obligations.OnlySclrIgnoresFields := by
  refine ⟨decode_descriptor .sclr, fun d d' i h h' hi => ?_, fun d => ?_⟩
  · rw [eq_encode_of_decode h hi, eq_encode_of_decode h' hi]
  · rw [exists_decode_eq_ok_iff, Ne, decode_eq_error_iff]
    omega

/-- Settles O1: the words are the encodings of their commands, SCLR's with any fields, or carry another `op` value. -/
theorem specWordsDecode : Obligations.SpecWordsDecode :=
  ⟨decodeOfEncode (.f64 0x1000#64 5#64), decodeOfEncode (.f128 0x2000#64 13#64), decodeOfEncode .sclr,
    decode_descriptor .sclr 0xDEADBEEF00000000#64 0xFFFFFFFFFFFFFFFF#64, decodeOfEncode (.supd 0x3000#64 37#64),
    decode_eq_error_iff.mpr (by decide), decode_eq_error_iff.mpr (by decide), decode_eq_error_iff.mpr (by decide),
    decodeOfEncode (.f64 0#64 0#64)⟩

/-! The rows of the opcode table (30_encoding.md R52). -/

theorem and_rowMask (d : Descriptor) : d &&& rowMask = descriptor (opField d) 0#64 0#64 := by
  rw [← Laws.OpcodeRow.mask_descriptor _ (addrField d) (lenField d), descriptor_fields]

/-- Every command's encoding fits its row. -/
theorem encode_and_rowMask (i : Instr) : encode i &&& rowMask = rowMatch i := by
  cases i with
  | f64 addr len => exact Laws.OpcodeRow.f64 addr len
  | f128 addr len => exact Laws.OpcodeRow.f128 addr len
  | sclr => exact Laws.OpcodeRow.sclr
  | supd addr len => exact Laws.OpcodeRow.supd addr len

theorem rowMatch_eq (i : Instr) : rowMatch i = descriptor i.opcode 0#64 0#64 := by
  rw [← encode_and_rowMask, and_rowMask, opField_of_decode (decodeOfEncode i)]

/-- A row fits a descriptor exactly when it has the descriptor's `op` value. -/
theorem rowMatch_iff : d &&& rowMask = rowMatch i ↔ opField d = i.opcode := by
  rw [and_rowMask, rowMatch_eq]
  refine ⟨fun h => ?_, fun h => by rw [h]⟩
  rw [← opField_descriptor (opField d) 0#64 0#64, h, opField_descriptor]

/-- The row that fits a descriptor is that of the command it decodes to. -/
theorem rowMatch_of_decode (h : decode d = .ok i) : d &&& rowMask = rowMatch i := rowMatch_iff.mpr (opField_of_decode h)

theorem decode_of_rowMatch (h : d &&& rowMask = rowMatch i) :
    decode d = .ok (i.withOperands (addrField d) (lenField d)) :=
  decode_of_opField (rowMatch_iff.mp h)

/-- Settles O3: each row fits by the `op` value of its command, whatever operands the command is written with. -/
theorem tableRowSelectsCommand : Obligations.TableRowSelectsCommand := by
  refine ⟨fun d => ⟨?f64, ?f128, ?sclr, ?supd⟩, decode_eq_error_iff.mpr (by decide)⟩
  case f64 =>
    exact ⟨fun h => ⟨_, _, decode_of_rowMatch (i := .f64 0#64 0#64) h⟩, fun ⟨_, _, h⟩ => rowMatch_of_decode h⟩
  case f128 =>
    exact ⟨fun h => ⟨_, _, decode_of_rowMatch (i := .f128 0#64 0#64) h⟩, fun ⟨_, _, h⟩ => rowMatch_of_decode h⟩
  case sclr => exact ⟨decode_of_rowMatch (i := .sclr), rowMatch_of_decode⟩
  case supd =>
    exact ⟨fun h => ⟨_, _, decode_of_rowMatch (i := .supd 0#64 0#64) h⟩, fun ⟨_, _, h⟩ => rowMatch_of_decode h⟩

/-! The assembler's lines (30_encoding.md R58). -/

theorem AsmLine.wellFormed_rd (r : RegName) : (AsmLine.rd r).wellFormed = decide (r.select < 2 ^ 64) := by
  cases r <;> rfl

theorem AsmLine.assemble_rd (r : RegName) :
    (AsmLine.rd r).assemble = if r.select < 2 ^ 64 then some (.read (BitVec.ofNat 64 r.select)) else none := rfl

/-- A line that stands for a command assembles to a descriptor of that command. -/
theorem AsmLine.assemble_of_instr? {line : AsmLine} (h : line.instr? = some i) :
    ∃ d, line.assemble = some (.command d) ∧ decode d = .ok i := by
  refine ⟨encode i, ?_, decodeOfEncode i⟩
  cases line with
  | rd r => cases h
  | _ => rw [AsmLine.assemble, h]; rfl

/-- A line assembles exactly when its numbers are below 2^64. -/
theorem AsmLine.wellFormed_iff (line : AsmLine) : line.wellFormed = true ↔ line.assemble ≠ none := by
  cases line with
  | rd r => rw [AsmLine.wellFormed_rd, AsmLine.assemble_rd]; simp
  | _ => simp [AsmLine.wellFormed, AsmLine.assemble, AsmLine.instr?]

/-- Settles O7: a command's line assembles to its encoding, and a read to its register's select number. -/
theorem assemblerLineDecodes : Obligations.AssemblerLineDecodes := by
  refine ⟨AsmLine.wellFormed_iff, fun addr len ha hl => ?_, rfl, fun r hr => if_pos hr⟩
  exact ⟨AsmLine.assemble_of_instr? (if_pos ⟨ha, hl⟩), AsmLine.assemble_of_instr? (if_pos ⟨ha, hl⟩),
    AsmLine.assemble_of_instr? (if_pos ⟨ha, hl⟩)⟩

end Sys2Proof

namespace Sys2Proof.Machine

variable {s : State} {i : Instr} {addr len : Word64}

/-! The checks of a command (30_encoding.md R54, R57). -/

/-- Settles O4: the decoder answers IllegalOpcode, and the step then refuses. -/
theorem illegalOpcodeIsRefused : Obligations.IllegalOpcodeIsRefused := by
  intro d s rest h1 h2 h3 h4 hp
  have hd : decode d = .error .illegalOpcode := decode_eq_error_iff.mpr ⟨h1, h2, h3, h4⟩
  exact ⟨hd, step_illegal hp hd⟩

theorem State.buffer_of_unreadable (hfits : addr.toNat + len.toNat ≤ 2 ^ 64)
    (h : ∃ j, j < len.toNat ∧ s.readByte (addr.toNat + j) = none) :
    s.buffer addr len = .refused .bufferNotReadable := by
  rw [State.buffer_of_fits s hfits, (State.readBytes_eq_none ..).mpr h, orStop_none]

theorem State.buffer_ne_refused (hfits : addr.toNat + len.toNat ≤ 2 ^ 64)
    (h : ∀ j, j < len.toNat → s.readByte (addr.toNat + j) ≠ none) (r : Refusal) : s.buffer addr len ≠ .refused r := by
  intro hr
  rcases s.buffer_cases addr len with ⟨hwraps, -⟩ | ⟨-, ⟨j, hj, hnone⟩, -⟩ | ⟨bytes, -, e⟩
  · omega
  · exact h j hj hnone
  · cases e.symm.trans hr

theorem dealWords_ne_refused (n w : Nat) (xs : List Word64) (S : List Stripe) (r : Refusal) :
    dealWords n w xs S ≠ .refused r := by
  rcases dealWords_cases n xs w S with ⟨_, e, -⟩ | e <;> rw [e] <;> exact nofun

/-- Past the check of its buffer a command is not refused (30_encoding.md R57). -/
theorem exec_eq_refused_iff (hi : i = .f64 addr len ∨ i = .f128 addr len ∨ i = .supd addr len) (s : State) (r : Refusal) :
    exec i s = .refused r ↔ s.buffer addr len = .refused r := by
  rcases hi with rfl | rfl | rfl
  · rw [exec_f64_eq, andThen_eq_refused]; simp
  · rw [exec_f128_eq, andThen_eq_refused]; simp
  · rw [exec_supd_eq, andThen_eq_refused]; simp [andThen_eq_refused, dealWords_ne_refused]

/-- Settles O29: a step with a command of format AL is refused exactly as the check of its buffer is. -/
theorem checksInOrder : Obligations.ChecksInOrder := by
  intro s d rest hp
  refine ⟨step_illegal hp, fun addr len hd => ?_, fun hd r => ?_⟩
  · obtain ⟨i, hi, hd⟩ :
        ∃ i, (i = .f64 addr len ∨ i = .f128 addr len ∨ i = .supd addr len) ∧ decode d = .ok i := by
      rcases hd with hd | hd | hd
      · exact ⟨_, .inl rfl, hd⟩
      · exact ⟨_, .inr (.inl rfl), hd⟩
      · exact ⟨_, .inr (.inr rfl), hd⟩
    have hrefused := exec_eq_refused_iff hi { s with pending := rest }
    rw [step_command hp hd]
    refine ⟨fun hwraps => ?_, fun hfits hnone => ?_, fun hfits hread r hr => ?_⟩
    · exact (hrefused _).mpr (State.buffer_of_wraps _ hwraps)
    · exact (hrefused _).mpr (State.buffer_of_unreadable hfits hnone)
    · exact State.buffer_ne_refused (s := { s with pending := rest }) hfits hread r ((hrefused r).mp hr)
  · rw [step_command hp hd]
    exact nofun

end Sys2Proof.Machine
end

section
/-! SUPPORT. The word accumulator: its step over the naturals, the closed form of a fold and the corner cases
(40_word_accumulator.md). -/

namespace Sys2Proof.Machine

variable {W : Nat}

/-! One step (40_word_accumulator.md R70, R71). -/

theorem acc_lo_toNat (a : Pair W) (x : BitVec W) : (acc a x).lo.toNat = (a.lo.toNat + x.toNat) % 2 ^ W :=
  BitVec.toNat_add a.lo x

theorem acc_hi_toNat (a : Pair W) (x : BitVec W) :
    (acc a x).hi.toNat = (a.hi.toNat + (acc a x).lo.toNat) % 2 ^ W :=
  BitVec.toNat_add a.hi (acc a x).lo

/-- Settles O10. -/
theorem accumulateLoThenHi : Obligations.AccumulateLoThenHi :=
  ⟨fun _ a x => ⟨acc_lo_toNat a x, acc_hi_toNat a x⟩, by decide⟩

/-! Folds (40_word_accumulator.md R72, R74). -/

/-- Settles O11. -/
theorem foldTakesWordsInOrder : Obligations.FoldTakesWordsInOrder := fun W a ws x =>
  ⟨foldFrom_nil (Pair.zero W), foldFrom_snoc (Pair.zero W) ws x, foldFrom_nil a, foldFrom_snoc a ws x, rfl⟩

/-- Settles O13. -/
theorem foldOfConcatenation : Obligations.FoldOfConcatenation := fun _ => foldFrom_append

/-! The closed form (40_word_accumulator.md R73). -/

/-- The sum of the words, over the naturals. -/
def wordSum (ws : List (BitVec W)) : Nat := ∑ i ∈ Finset.range ws.length, (ws.getD i 0#W).toNat

/-- The sum over the naturals in which each word counts once for every word from it to the end of the list. -/
def weightedSum (ws : List (BitVec W)) : Nat :=
  ∑ i ∈ Finset.range ws.length, (ws.length - i) * (ws.getD i 0#W).toNat

@[simp] theorem wordSum_nil : wordSum ([] : List (BitVec W)) = 0 := rfl
@[simp] theorem weightedSum_nil : weightedSum ([] : List (BitVec W)) = 0 := rfl

@[simp] theorem wordSum_cons (x : BitVec W) (xs : List (BitVec W)) : wordSum (x :: xs) = wordSum xs + x.toNat :=
  Finset.sum_range_succ' (fun i => ((x :: xs).getD i 0#W).toNat) xs.length

@[simp] theorem weightedSum_cons (x : BitVec W) (xs : List (BitVec W)) :
    weightedSum (x :: xs) = weightedSum xs + (xs.length + 1) * x.toNat := by
  simp [weightedSum, Finset.sum_range_succ' _ xs.length]

/-- The low half is the sum of the words, reduced once at the end. -/
theorem foldFrom_lo_toNat (a : Pair W) (ws : List (BitVec W)) :
    (foldFrom a ws).lo.toNat = (a.lo.toNat + wordSum ws) % 2 ^ W := by
  induction ws generalizing a with
  | nil => simp [Nat.mod_eq_of_lt a.lo.isLt]
  | cons x xs ih =>
    rw [foldFrom_cons, ih, acc_lo_toNat, Nat.mod_add_mod, wordSum_cons, Nat.add_assoc, Nat.add_comm x.toNat]

/-- The high half is the weighted sum, reduced once at the end: each low half on the way holds the starting one and all
words so far. -/
theorem foldFrom_hi_toNat (a : Pair W) (ws : List (BitVec W)) :
    (foldFrom a ws).hi.toNat = (a.hi.toNat + ws.length * a.lo.toNat + weightedSum ws) % 2 ^ W := by
  induction ws generalizing a with
  | nil => simp [Nat.mod_eq_of_lt a.hi.isLt]
  | cons x xs ih =>
    have hlo : (acc a x).lo.toNat ≡ a.lo.toNat + x.toNat [MOD 2 ^ W] := by
      rw [acc_lo_toNat]; exact Nat.mod_modEq _ _
    have hhi : (acc a x).hi.toNat ≡ a.hi.toNat + (acc a x).lo.toNat [MOD 2 ^ W] := by
      rw [acc_hi_toNat]; exact Nat.mod_modEq _ _
    rw [foldFrom_cons, ih]
    calc (acc a x).hi.toNat + xs.length * (acc a x).lo.toNat + weightedSum xs
      _ ≡ a.hi.toNat + (a.lo.toNat + x.toNat) + xs.length * (a.lo.toNat + x.toNat) + weightedSum xs [MOD 2 ^ W] :=
        (hhi.trans (hlo.add_left _)).add (hlo.mul_left _) |>.add_right _
      _ = a.hi.toNat + (x :: xs).length * a.lo.toNat + weightedSum (x :: xs) := by
        rw [weightedSum_cons, List.length_cons]; ring

/-- Settles O12, by the two inductions over the words above. -/
theorem foldClosedForm : Obligations.FoldClosedForm := fun _ a ws => ⟨foldFrom_lo_toNat a ws, foldFrom_hi_toNat a ws⟩

/-! The corner cases (40_word_accumulator.md R77). -/

theorem acc_zero_word (a : Pair W) : acc a 0#W = ⟨a.hi + a.lo, a.lo⟩ := by
  simp [acc]

/-- Leading zero words leave the accumulator a fold starts from. -/
theorem fold_replicate_zero (n : Nat) : fold (List.replicate n 0#W) = Pair.zero W := by
  induction n with
  | zero => rfl
  | succ n ih =>
    have hstep : acc (Pair.zero W) 0#W = Pair.zero W := by simp [acc_zero_word, Pair.zero]
    rw [List.replicate_succ, fold, foldFrom_cons, hstep]
    exact ih

/-- An addition that reaches `2 ^ W` wraps once. -/
theorem toNat_add_of_wraps {x y : BitVec W} (h : 2 ^ W ≤ x.toNat + y.toNat) :
    (x + y).toNat = x.toNat + y.toNat - 2 ^ W := by
  have hlt : x.toNat + y.toNat - 2 ^ W < 2 ^ W := by
    have hx := x.isLt
    have hy := y.isLt
    omega
  rw [BitVec.toNat_add, Nat.mod_eq_sub_mod h, Nat.mod_eq_of_lt hlt]

/-- The low half adds up the words and nothing else. -/
theorem foldFrom_lo (a : Pair W) (ws : List (BitVec W)) : (foldFrom a ws).lo = ws.foldl (· + ·) a.lo :=
  (List.foldl_hom Pair.lo fun _ _ => rfl).symm

/-- The low half does not depend on the order of the words. -/
theorem foldFrom_lo_of_perm (a : Pair W) {ws ws' : List (BitVec W)} (h : ws.Perm ws') :
    (foldFrom a ws).lo = (foldFrom a ws').lo := by
  rw [foldFrom_lo, foldFrom_lo, h.foldl_eq]

/-- Settles O14: both wraps are the wrap of one addition, in `lo` first and then in `hi`. -/
theorem accumulatorCornerCases : Obligations.AccumulatorCornerCases := by
  refine ⟨fun W a => ?_, by decide, by decide, fun W n => fold_replicate_zero n, fun W a x hlo => ?_,
    fun W a x hhi => toNat_add_of_wraps hhi, by decide, by decide, fun W ws ws' h => foldFrom_lo_of_perm _ h⟩
  · rw [acc_zero_word]
    exact ⟨rfl, BitVec.toNat_add a.hi a.lo⟩
  · have hwrap : (acc a x).lo.toNat = a.lo.toNat + x.toNat - 2 ^ W := toNat_add_of_wraps hlo
    exact ⟨hwrap, hwrap ▸ acc_hi_toNat a x⟩

end Sys2Proof.Machine
end

section
/-! SUPPORT. The tail padder (41_tail_padder.md): word counts and their bounds, a word as the sum of its bytes and byte by
byte, and why zero bytes up to the next word boundary change nothing. -/

namespace Sys2Proof.Machine

variable {W B : Nat} {bytes : List Byte}

/-! Word counts (41_tail_padder.md R80, R81). -/

/-- Settles O15: the count is `len / B` rounded up, and a length below `2 ^ 64` bounds it. -/
theorem wordCountAndBounds : Obligations.WordCountAndBounds := by
  refine ⟨fun B len hB => ⟨rfl, rfl, rfl, nwords_eq hB len⟩, nwords_zero, fun len hlen => ?_⟩
  rw [nwords_eq (by decide), nwords_eq (by decide)]
  omega

/-- The words reach to the end of the buffer. -/
theorem le_mul_nwords (hB : 0 < B) (len : Nat) : len ≤ B * nwords B len :=
  Nat.not_lt.mp (mt (lt_nwords_iff hB len _).mpr (Nat.lt_irrefl _))

theorem nwords_mul (hB : 0 < B) (q : Nat) : nwords B (B * q) = q := by
  simp [nwords, fullWords, tailBytes, hB]

/-- The widths of the engine's words are whole bytes. -/
theorem wholeBytes_of_width (hW : W = 32 ∨ W = 64) : W % 8 = 0 ∧ 0 < W / 8 := by omega

/-! The word list (41_tail_padder.md R84). -/

theorem wordsOf_nil (W : Nat) : wordsOf W [] = [] :=
  List.length_eq_zero_iff.mp ((wordsOf_length W []).trans (nwords_zero _))

/-- Settles O18. -/
theorem wordListAscends : Obligations.WordListAscends := by
  refine fun W _ bytes => ⟨wordsOf_length W bytes, fun k hk => ?_, fun hlen => ?_⟩
  · rw [List.getElem?_eq_getElem (by rwa [wordsOf_length]), wordsOf_getElem]
  · rw [List.length_eq_zero_iff.mp hlen, wordsOf_nil]

/-! The bytes of a little-endian value (00_scope.md R7). -/

theorem two_pow_eight_mul_succ (j : Nat) : 2 ^ (8 * (j + 1)) = 256 * 2 ^ (8 * j) := by
  rw [Nat.mul_succ, Nat.pow_add, Nat.mul_comm]

theorem littleEndian_eq_sum (bs : List Byte) :
    littleEndian bs = ∑ j ∈ Finset.range bs.length, (bs.getD j 0#8).toNat * 2 ^ (8 * j) := by
  induction bs with
  | nil => rfl
  | cons b bs ih =>
    rw [littleEndian, ih, List.length_cons, Finset.sum_range_succ', Nat.add_comm, Finset.mul_sum]
    simp [two_pow_eight_mul_succ, Nat.mul_left_comm]

/-- Byte `j` of a little-endian value is byte `j` of the list, zero where the list has ended. -/
theorem littleEndian_byte (bs : List Byte) (j : Nat) :
    littleEndian bs / 2 ^ (8 * j) % 256 = (bs.getD j 0#8).toNat := by
  induction bs generalizing j with
  | nil => simp [littleEndian]
  | cons b bs ih =>
    have hb := b.isLt
    cases j with
    | zero => rw [littleEndian, List.getD_cons_zero]; omega
    | succ j =>
      have htail : littleEndian (b :: bs) / 256 = littleEndian bs := by rw [littleEndian]; omega
      rw [two_pow_eight_mul_succ, ← Nat.div_div_eq_div_mul, htail, ih, List.getD_cons_succ]

/-! A word and its bytes (41_tail_padder.md R82, R83). -/

/-- Byte `j` of word `k` stands at offset `B * k + j` of the buffer. -/
theorem wordSlice_getD {j : Nat} (hj : j < B) (bytes : List Byte) (k : Nat) :
    (wordSlice B bytes k).getD j 0#8 = bytes.getD (B * k + j) 0#8 := by
  rw [wordSlice_eq_take, List.getD_eq_getElem?_getD, List.getD_eq_getElem?_getD, List.getElem?_take_of_lt hj,
    List.getElem?_drop]

/-- Settles O16: the word's value is the little-endian sum of its bytes, and each of them is a byte of the buffer. -/
theorem wordIsLittleEndianSum : Obligations.WordIsLittleEndianSum := by
  intro W hW s addr len bytes k hbuf _
  obtain ⟨hW, -⟩ := wholeBytes_of_width hW
  refine ⟨?_, hbuf.readWord W k⟩
  rw [wordAt_toNat hW, littleEndian_eq_sum, wordSlice_length, wordBytes, hbuf.length]
  refine Finset.sum_congr rfl fun j hj => ?_
  rw [wordSlice_getD (by rw [Finset.mem_range] at hj; omega)]

theorem wordAt_byte (hW : W % 8 = 0) (bytes : List Byte) (k : Nat) {j : Nat} (hj : j < W / 8) :
    (wordAt W bytes k).extractLsb' (8 * j) 8 = bytes.getD (W / 8 * k + j) 0#8 := by
  apply BitVec.eq_of_toNat_eq
  rw [BitVec.extractLsb'_toNat, wordAt_toNat hW, Nat.shiftRight_eq_div_pow, ← wordSlice_getD hj]
  exact littleEndian_byte _ j

/-- Settles O17: byte `j` of the word is byte `j` of its slice of the buffer, and a list that has ended reads as zero. -/
theorem wordBytePositions : Obligations.WordBytePositions := by
  intro W hW bytes k j hj
  obtain ⟨hW, -⟩ := wholeBytes_of_width hW
  rw [wordAt_byte hW bytes k hj]
  split
  · rfl
  · next hend => exact List.getD_eq_default _ _ (Nat.not_lt.mp hend)

/-! Zero bytes after the buffer (41_tail_padder.md R86). -/

/-- Zero bytes after the buffer add zero bytes to a word's slice. -/
theorem wordSlice_append_zeros (B : Nat) (bytes : List Byte) (n k : Nat) :
    ∃ m, wordSlice B (bytes ++ List.replicate n 0#8) k = wordSlice B bytes k ++ List.replicate m 0#8 := by
  rw [wordSlice_eq_take, wordSlice_eq_take, List.drop_append, List.take_append, List.drop_replicate, List.take_replicate]
  exact ⟨_, rfl⟩

/-- Zero bytes after the buffer leave every word as it is. -/
theorem wordAt_append_zeros (hW : W % 8 = 0) (bytes : List Byte) (n k : Nat) :
    wordAt W (bytes ++ List.replicate n 0#8) k = wordAt W bytes k := by
  obtain ⟨m, hslice⟩ := wordSlice_append_zeros (W / 8) bytes n k
  apply BitVec.eq_of_toNat_eq
  rw [wordAt_toNat hW, wordAt_toNat hW, hslice, littleEndian_append, littleEndian_zeros, Nat.mul_zero, Nat.add_zero]

/-- Zero bytes up to the next word boundary add no word. -/
theorem wordsOf_append_padding (hW : W = 32 ∨ W = 64) (bytes : List Byte) :
    wordsOf W (bytes ++ List.replicate (W / 8 * nwords (W / 8) bytes.length - bytes.length) 0#8) = wordsOf W bytes := by
  obtain ⟨hW, hB⟩ := wholeBytes_of_width hW
  apply List.ext_getElem
  · rw [wordsOf_length, wordsOf_length, List.length_append, List.length_replicate,
      Nat.add_sub_of_le (le_mul_nwords hB _), nwords_mul hB]
  · intro k _ _
    rw [wordsOf_getElem, wordsOf_getElem, wordAt_append_zeros hW]

/-- The first bytes of an admitted buffer are an admitted buffer. -/
theorem State.Buffer.of_append {s : State} {addr len len' : Word64} {rest : List Byte}
    (h : s.Buffer addr len' (bytes ++ rest)) (hlen : len.toNat = bytes.length) : s.Buffer addr len bytes where
  fits := by
    have hfits := h.fits
    have hlen' := h.length
    rw [List.length_append] at hlen'
    omega
  length := hlen
  holds i hi := by
    rw [h.holds i (by rw [List.length_append]; omega), List.getElem_append_left hi]

/-- What goes on from the words of a buffer alone goes on alike from the words of its zero extension. -/
theorem State.Buffer.andThen_wordsOf_padding {α : Type} {s : State} {addr len len' : Word64} (hW : W = 32 ∨ W = 64)
    (hext : s.Buffer addr len'
      (bytes ++ List.replicate (W / 8 * nwords (W / 8) bytes.length - bytes.length) 0#8))
    (hlen : len.toNat = bytes.length) (f : List (BitVec W) → Host.Outcome α Fault Refusal) :
    andThen (s.buffer addr len) (fun bs => f (wordsOf W bs)) =
      andThen (s.buffer addr len') fun bs => f (wordsOf W bs) := by
  have hshort : s.buffer addr len = .next bytes := (State.buffer_eq_next ..).mpr (hext.of_append hlen)
  rw [hshort, (State.buffer_eq_next ..).mpr hext, andThen_next, andThen_next, wordsOf_append_padding hW]

/-- Settles O19: both buffers are admitted and have the same words, and a command goes on from the words alone. -/
theorem tailPaddingEquivalence : Obligations.TailPaddingEquivalence := by
  refine ⟨fun W hW => wordsOf_append_padding hW, fun s addr len len' bytes hlen hext => ?_,
    fun s addr len len' bytes hlen hext => ⟨?_, ?_⟩⟩
  · rw [exec_f64_eq, exec_f64_eq]
    exact hext.andThen_wordsOf_padding (.inl rfl) hlen fun ws => .next (s.setRes64 (pack (fold ws)))
  · rw [exec_f128_eq, exec_f128_eq]
    exact hext.andThen_wordsOf_padding (.inr rfl) hlen fun ws => .next (s.setRes128 (fold ws))
  · rw [exec_supd_eq, exec_supd_eq]
    exact hext.andThen_wordsOf_padding (.inr rfl) hlen fun ws =>
      andThen (dealWords s.stripeCount 0 ws s.stripes) fun S => .next (s.setStripes S)

end Sys2Proof.Machine
end

section
/-! SUPPORT. The whole-buffer Fletcher-64 engine (42_fletcher64.md): what F64 answers, the same word by word, and what the
commands answer for an empty buffer. -/

namespace Sys2Proof.Machine

variable {s : State} {addr len : Word64} {bytes : List Byte}

/-! The atomic command (42_fletcher64.md R90). -/

theorem State.Buffer.exec_f64 (h : s.Buffer addr len bytes) :
    exec (.f64 addr len) s = .next (s.setRes64 (pack (fold (wordsOf 32 bytes)))) := by
  rw [exec_f64_eq, (State.buffer_eq_next ..).mpr h, andThen_next]

/-- Settles O21: the buffer check answers both refusals, and past it RES64 is the packed fold. -/
theorem f64WritesPackedFold : Obligations.F64WritesPackedFold := by
  refine fun s addr len => ⟨fun hwraps => ?_, fun hfits hnone => ?_, fun bytes hbuf => ?_⟩
  · rw [exec_f64_eq, State.buffer_of_wraps s hwraps, andThen_refused]
  · rw [exec_f64_eq, State.buffer_of_unreadable hfits hnone, andThen_refused]
  · exact ⟨pack (fold (wordsOf 32 bytes)), pack_toNat _, hbuf.exec_f64⟩

/-! Word steps of any command (10_state.md R18). -/

/-- The last of `k + 1` word steps comes after the first `k`. -/
theorem wordSteps_succ_last (k : Nat) (t : Stepped) : wordSteps (k + 1) t = andThen (wordSteps k t) wordStep := by
  induction k generalizing t with
  | zero => cases h : wordStep t <;> simp [wordSteps, h]
  | succ k ih =>
    calc wordSteps (k + 1 + 1) t
        = andThen (wordStep t) fun t' => andThen (wordSteps k t') wordStep := by rw [wordSteps, funext ih]
      _ = andThen (wordSteps (k + 1) t) wordStep := (andThen_assoc ..).symm

/-- Where each of `n` word steps leads from one state of a sequence to the next, `k` of them lead to its state `k`. -/
theorem wordSteps_of_sequence {σ : Nat → Stepped} {n k : Nat} (h : ∀ w, w < n → wordStep (σ w) = .next (σ (w + 1)))
    (hk : k ≤ n) : wordSteps k (σ 0) = .next (σ k) := by
  induction k with
  | zero => rfl
  | succ k ih => rw [wordSteps_succ_last, ih (Nat.le_of_succ_le hk), andThen_next, h k hk]

/-- The fold of one word more accumulates that word. -/
theorem fold_take_succ {W k : Nat} {ws : List (BitVec W)} (hk : k < ws.length) :
    fold (ws.take (k + 1)) = acc (fold (ws.take k)) ws[k] := by
  rw [List.take_add_one, List.getElem?_eq_getElem hk]
  exact foldFrom_snoc ..

/-! The word steps of F64 (42_fletcher64.md R94). -/

/-- F64 in flight after `w` word steps: the word index is `w`, the working accumulator the fold of the first `w` words. -/
def f64InFlight (s : State) (addr len : Word64) (bytes : List Byte) (w : Nat) : Stepped :=
  ⟨s, some (.f64 addr len w (fold ((wordsOf 32 bytes).take w)))⟩

theorem beginCommand_f64 (h : s.Buffer addr len bytes) :
    beginCommand (.f64 addr len) s = .next (f64InFlight s addr len bytes 0) := by
  rw [beginCommand, (State.buffer_eq_next ..).mpr h]
  rfl

/-- While words are left, a word step of F64 accumulates the next one. -/
theorem wordStep_f64InFlight_word (h : s.Buffer addr len bytes) {w : Nat} (hw : w < nwords 4 len.toNat) :
    wordStep (f64InFlight s addr len bytes w) = .next (f64InFlight s addr len bytes (w + 1)) := by
  have hlt : w < (wordsOf 32 bytes).length := (h.length_wordsOf 32).symm ▸ hw
  rw [f64InFlight, wordStep_f64, if_pos hw, h.readWord 32 w, andThen_next, f64InFlight, fold_take_succ hlt,
    wordsOf_getElem]

/-- With no word left, a word step of F64 completes it in the state of the atomic command. -/
theorem wordStep_f64InFlight_done (h : s.Buffer addr len bytes) :
    wordStep (f64InFlight s addr len bytes (nwords 4 len.toNat)) =
      .next ⟨s.setRes64 (pack (fold (wordsOf 32 bytes))), none⟩ := by
  rw [f64InFlight, wordStep_f64, if_neg (Nat.lt_irrefl _), List.take_of_length_le (h.length_wordsOf 32).le]

/-- Settles O52: the invariant of R94 holds when the command begins, every word step keeps it, and the step after the last
word writes the fold of all of them. -/
theorem wordStepsComputeF64 : Obligations.WordStepsComputeF64 := by
  intro s addr len bytes hbuf
  have hinv {k : Nat} (hk : k ≤ nwords 4 len.toNat) :
      wordSteps k (f64InFlight s addr len bytes 0) = .next (f64InFlight s addr len bytes k) :=
    wordSteps_of_sequence (fun _ => wordStep_f64InFlight_word hbuf) hk
  refine ⟨_, _, beginCommand_f64 hbuf, hbuf.exec_f64, fun k hk => hinv hk, ?_⟩
  rw [wordSteps_succ_last, hinv le_rfl, andThen_next, wordStep_f64InFlight_done hbuf]

/-! The empty buffer (42_fletcher64.md R92, 43_fletcher128.md R101, 44_striped128.md R122). -/

/-- Settles O31: the empty buffer is admitted at every address and has no word, so a fold stays at (0, 0) and no stripe is
dealt one. -/
theorem zeroLengthResults : Obligations.ZeroLengthResults := by
  refine fun s addr => ⟨?_, ?_, ?_⟩
  · rw [exec_f64_eq, s.buffer_zero, andThen_next, wordsOf_nil]
    rfl
  · rw [exec_f128_eq, s.buffer_zero, andThen_next, wordsOf_nil]
    rfl
  · rw [exec_supd_eq, s.buffer_zero, andThen_next, wordsOf_nil]
    rfl

end Sys2Proof.Machine
end

section
/-! SUPPORT. The whole-buffer Fletcher-128 engine (43_fletcher128.md): what F128 answers, its equality with one stripe, and
the same word by word. -/

namespace Sys2Proof.Machine

variable {s : State} {addr len : Word64} {bytes : List Byte}

/-! The atomic command (43_fletcher128.md R100). -/

theorem State.Buffer.exec_f128 (h : s.Buffer addr len bytes) :
    exec (.f128 addr len) s = .next (s.setRes128 (fold (wordsOf 64 bytes))) := by
  rw [exec_f128_eq, (State.buffer_eq_next ..).mpr h, andThen_next]

/-- Settles O22: the buffer check answers both refusals, and past it the result registers take the fold. -/
theorem f128WritesFold : Obligations.F128WritesFold := by
  refine fun s addr len => ⟨fun hwraps => ?_, fun hfits hnone => ?_, fun bytes hbuf => hbuf.exec_f128⟩
  · rw [exec_f128_eq, State.buffer_of_wraps s hwraps, andThen_refused]
  · rw [exec_f128_eq, State.buffer_of_unreadable hfits hnone, andThen_refused]

/-! One stripe (43_fletcher128.md R101 item 3). -/

/-- A stripe that holds a value takes a word. -/
theorem accumulateStripe_single (p : Pair 64) (x : Word64) :
    accumulateStripe [Stripe.holding p] 0 x = .next [Stripe.holding (acc p x)] := rfl

/-- The only stripe receives every word, from whatever position they are dealt. -/
theorem dealWords_single (ws : List Word64) (w : Nat) (p : Pair 64) :
    dealWords 1 w ws [Stripe.holding p] = .next [Stripe.holding (foldFrom p ws)] := by
  induction ws generalizing w p with
  | nil => rfl
  | cons x xs ih =>
    rw [dealWords, Nat.mod_one, accumulateStripe_single, andThen_next, ih, foldFrom_cons]

theorem State.clearStripes_stripes_single (h : s.stripeCount = 1) :
    s.clearStripes.stripes = [Stripe.holding (Pair.zero 64)] := by
  rw [State.clearStripes_stripes, h, List.replicate_one]

/-- With one stripe, SUPD right after SCLR leaves the fold of the buffer's words in it. -/
theorem State.Buffer.execSupd_clearStripes_single (h : s.Buffer addr len bytes) (hn : s.stripeCount = 1) :
    execSupd addr len s.clearStripes =
      .next (s.clearStripes.setStripes [Stripe.holding (fold (wordsOf 64 bytes))]) := by
  have hbuf : s.clearStripes.Buffer addr len bytes := h.setStripes _
  rw [execSupd_of_buffer hbuf, State.clearStripes_stripeCount, hn, State.clearStripes_stripes_single hn,
    dealWords_single, andThen_next, fold]

/-- Settles O33: the one stripe starts from (0, 0) and receives every word, so it ends at the fold that F128 writes. -/
theorem oneStripeEqualsF128 : Obligations.OneStripeEqualsF128 := fun _ _ _ _ hn hbuf =>
  ⟨_, _, _, rfl, hbuf.execSupd_clearStripes_single hn, hbuf.exec_f128, rfl⟩

/-! The word steps of F128 (43_fletcher128.md R103). -/

/-- F128 in flight after `w` word steps: the word index is `w`, the working accumulator the fold of the first `w` words. -/
def f128InFlight (s : State) (addr len : Word64) (bytes : List Byte) (w : Nat) : Stepped :=
  ⟨s, some (.f128 addr len w (fold ((wordsOf 64 bytes).take w)))⟩

theorem beginCommand_f128 (h : s.Buffer addr len bytes) :
    beginCommand (.f128 addr len) s = .next (f128InFlight s addr len bytes 0) := by
  rw [beginCommand, (State.buffer_eq_next ..).mpr h]
  rfl

/-- While words are left, a word step of F128 accumulates the next one. -/
theorem wordStep_f128InFlight_word (h : s.Buffer addr len bytes) {w : Nat} (hw : w < nwords 8 len.toNat) :
    wordStep (f128InFlight s addr len bytes w) = .next (f128InFlight s addr len bytes (w + 1)) := by
  have hlt : w < (wordsOf 64 bytes).length := (h.length_wordsOf 64).symm ▸ hw
  rw [f128InFlight, wordStep_f128, if_pos hw, h.readWord 64 w, andThen_next, f128InFlight, fold_take_succ hlt,
    wordsOf_getElem]

/-- With no word left, a word step of F128 completes it in the state of the atomic command. -/
theorem wordStep_f128InFlight_done (h : s.Buffer addr len bytes) :
    wordStep (f128InFlight s addr len bytes (nwords 8 len.toNat)) =
      .next ⟨s.setRes128 (fold (wordsOf 64 bytes)), none⟩ := by
  rw [f128InFlight, wordStep_f128, if_neg (Nat.lt_irrefl _), List.take_of_length_le (h.length_wordsOf 64).le]

/-- Settles O53: the invariant of R103 holds when the command begins, every word step keeps it, and the step after the last
word writes the fold of all of them. -/
theorem wordStepsComputeF128 : Obligations.WordStepsComputeF128 := by
  intro s addr len bytes hbuf
  have hinv {k : Nat} (hk : k ≤ nwords 8 len.toNat) :
      wordSteps k (f128InFlight s addr len bytes 0) = .next (f128InFlight s addr len bytes k) :=
    wordSteps_of_sequence (fun _ => wordStep_f128InFlight_word hbuf) hk
  refine ⟨_, _, beginCommand_f128 hbuf, hbuf.exec_f128, fun k hk => hinv hk, ?_⟩
  rw [wordSteps_succ_last, hinv le_rfl, andThen_next, wordStep_f128InFlight_done hbuf]

end Sys2Proof.Machine
end

section
/-! SUPPORT. The striped Fletcher-128 array (44_striped128.md): the words SUPD deals to each stripe, what it leaves alone,
and a file handed over in chunks. -/

namespace Sys2Proof.Machine

variable {n i : Nat} {s t : State} {addr len : Word64} {bytes : List Byte}

/-! SCLR (44_striped128.md R110). -/

/-- Settles O23: the next state's stripes are N copies of the stripe that holds (0, 0), whatever they were. -/
theorem sclrZeroesEveryStripe : Obligations.SclrZeroesEveryStripe := fun _ =>
  ⟨_, rfl, List.length_replicate, fun _ hi => List.getElem?_replicate_of_lt hi, rfl⟩

/-! Lanes (44_striped128.md R112, R115, R117). -/

/-- The words dealt to stripe `i` stand at the positions that are `i` modulo `n`. -/
theorem dealt_eq_filter (n i : Nat) (ws : List Word64) :
    dealt n i 0 ws = ((List.range ws.length).filter fun w => w % n = i).map fun w => ws.getD w 0#64 := by
  induction ws using List.reverseRecOn with
  | nil => rfl
  | append_singleton ws x ih =>
    have hinit : ∀ w ∈ (List.range ws.length).filter fun w => w % n = i,
        (ws ++ [x]).getD w 0#64 = ws.getD w 0#64 := fun w hw =>
      List.getD_append _ _ _ _ (List.mem_range.mp (List.mem_of_mem_filter hw))
    rw [dealt_append, ih, Nat.zero_add, dealt_cons, List.length_append, List.length_singleton, List.range_succ,
      List.filter_append, List.map_append, List.map_congr_left hinit]
    by_cases hlast : ws.length % n = i <;> simp [hlast, dealt]

theorem lane_length (n i : Nat) (ws : List Word64) : (lane n i ws).length = laneCount n i ws.length := by
  rw [lane, List.length_map, List.length_range]

theorem lane_ne_nil_iff (hi : i < n) (ws : List Word64) : lane n i ws ≠ [] ↔ i < ws.length := by
  rw [lane_eq_dealt hi, dealt_ne_nil hi]

/-- Settles O25: a lane is what dealing round-robin gives its stripe. -/
theorem laneIsRoundRobin : Obligations.LaneIsRoundRobin := fun n i ws hi =>
  ⟨(lane_eq_dealt hi ws).trans (dealt_eq_filter n i ws), lane_length n i ws, lane_ne_nil_iff hi ws⟩

/-! SUPD, stripe by stripe (44_striped128.md R112, R116, R117). -/

/-- Where accumulating a word goes on, its stripe has absorbed the word and every other one is as before. -/
theorem accumulateStripe_getElem? {S S' : List Stripe} {k : Nat} {x : Word64} (h : accumulateStripe S k x = .next S')
    (i : Nat) : S'[i]? = S[i]?.map fun st => if k = i then st.absorb [x] else st := by
  rw [accumulateStripe_eq] at h
  split at h
  · cases h
    rw [List.getElem?_set']
    by_cases hk : k = i
    · subst hk
      cases hS : S[k]? <;> simp [hS]
    · simp [hk]
  · cases h

/-- Where dealing goes on, each stripe has absorbed the words dealt to it. -/
theorem dealWords_getElem? {w : Nat} {xs : List Word64} {S S' : List Stripe} (h : dealWords n w xs S = .next S')
    (i : Nat) : S'[i]? = S[i]?.map fun st => st.absorb (dealt n i w xs) := by
  induction xs generalizing w S with
  | nil =>
    cases h
    simp [dealt]
  | cons x xs ih =>
    obtain ⟨S₁, hfirst, hrest⟩ := andThen_eq_next.mp h
    rw [ih hrest, accumulateStripe_getElem? hfirst, Option.map_map, dealt_cons]
    congr 1
    funext st
    by_cases hw : w % n = i <;> simp [hw, ← Stripe.absorb_append]

/-- What SUPD's next state holds: each stripe has absorbed the words of the buffer dealt to it. -/
theorem State.Buffer.supd_getElem? (h : s.Buffer addr len bytes) (ht : exec (.supd addr len) s = .next t) (i : Nat) :
    t.stripes[i]? = s.stripes[i]?.map fun st => st.absorb (dealt s.stripeCount i 0 (wordsOf 64 bytes)) := by
  obtain ⟨S, hdeal, hS⟩ := andThen_eq_next.mp ((execSupd_of_buffer h).symm.trans ht)
  cases hS
  exact dealWords_getElem? hdeal i

/-- A stripe receives a word of the buffer exactly when its index is below the word count. -/
theorem State.Buffer.dealt_ne_nil_iff (h : s.Buffer addr len bytes) (hi : i < s.stripeCount) :
    dealt s.stripeCount i 0 (wordsOf 64 bytes) ≠ [] ↔ i < nwords 8 len.toNat := by
  rw [dealt_ne_nil hi, h.length_wordsOf 64]

/-- SUPD completes where every stripe that receives a word holds a value. -/
theorem State.Buffer.exec_supd (h : s.Buffer addr len bytes) (hn : 0 < s.stripeCount)
    (hlen : s.stripes.length = s.stripeCount) (hspec : s.StripesSpecified (nwords 8 len.toNat)) :
    ∃ S, exec (.supd addr len) s = .next (s.setStripes S) ∧ S.length = s.stripeCount := by
  have hvalues : ∀ i (hi : i < s.stripes.length), dealt s.stripeCount i 0 (wordsOf 64 bytes) ≠ [] →
      s.stripes[i].isSpecified = true := by
    intro i hi hreceives
    obtain ⟨hhi, hlo⟩ := hspec i hi ((h.dealt_ne_nil_iff (hlen ▸ hi)).mp hreceives)
    rw [Stripe.isSpecified, hhi, hlo, Bool.and_self]
  obtain ⟨S, hdeal, hS, -⟩ := dealWords_next hn (wordsOf 64 bytes) 0 s.stripes hlen hvalues
  refine ⟨S, ?_, hS.trans hlen⟩
  calc exec (.supd addr len) s = _ := execSupd_of_buffer h
    _ = .next (s.setStripes S) := by rw [hdeal, andThen_next]

/-- A stripe absorbs its lane: it goes on over the lane where it receives a word, and stays where it receives none. -/
theorem Stripe.absorb_dealt (hi : i < n) (st : Stripe) (ws : List Word64) :
    st.absorb (dealt n i 0 ws) =
      if i < ws.length then Stripe.holding (foldFrom ⟨st.hi.value, st.lo.value⟩ (lane n i ws)) else st := by
  rw [← lane_eq_dealt hi, Stripe.absorb, ← ite_not]
  simp only [← lane_ne_nil_iff hi, ne_eq]

/-- Settles O24: SUPD completes, and each stripe has absorbed its lane. -/
theorem supdUpdatesEachLane : Obligations.SupdUpdatesEachLane := by
  intro s addr len bytes hbuf hn (hlen : s.stripes.length = s.stripeCount) hspec
  obtain ⟨S, hexec, hS⟩ := hbuf.exec_supd hn hlen hspec
  refine ⟨S, hexec, hS, fun i st hst => ?_⟩
  obtain ⟨hi, -⟩ := List.getElem?_eq_some_iff.mp hst
  calc S[i]? = some (st.absorb (dealt s.stripeCount i 0 (wordsOf 64 bytes))) := by
        rw [← State.setStripes_stripes s S, hbuf.supd_getElem? hexec, hst, Option.map_some]
    _ = _ := by
        rw [Stripe.absorb_dealt (hi.trans_eq hlen), hbuf.length_wordsOf 64]
        rfl

/-- Some of `N` stripes receives no word exactly when the buffer leaves one free (44_striped128.md R116). -/
theorem exists_untouched_iff {N : Nat} (hN : 1 ≤ N) (len : Nat) :
    (∃ i, i < N ∧ nwords 8 len ≤ i) ↔ len ≤ 8 * (N - 1) := by
  have hlast : nwords 8 len ≤ N - 1 ↔ len ≤ 8 * (N - 1) := by
    rw [← Nat.not_lt, lt_nwords_iff (by decide), Nat.not_lt]
  rw [← hlast]
  constructor
  · rintro ⟨i, hi, hle⟩
    omega
  · exact fun hle => ⟨N - 1, by omega, hle⟩

/-- Settles O26: a stripe at or above the word count is dealt no word, and absorbing none leaves it alone. -/
theorem untouchedStripes : Obligations.UntouchedStripes := by
  refine ⟨fun s t addr len _ ht i hi huntouched => ?_, fun s addr len bytes hbuf hn hlen hspec => ?_,
    fun N len hN => exists_untouched_iff hN len, fun s addr => (zeroLengthResults s addr).2.2⟩
  · obtain ⟨bytes, hbytes, -⟩ := andThen_eq_next.mp ((exec_supd_eq addr len s).symm.trans ht)
    have hbuf : s.Buffer addr len bytes := (State.buffer_eq_next ..).mp hbytes
    have hnone : dealt s.stripeCount i 0 (wordsOf 64 bytes) = [] :=
      not_ne_iff.mp (mt (hbuf.dealt_ne_nil_iff hi).mp (Nat.not_lt.mpr huntouched))
    rw [hbuf.supd_getElem? ht, hnone]
    simp only [Stripe.absorb_nil, Option.map_id']
  · obtain ⟨S, hexec, -⟩ := hbuf.exec_supd hn hlen hspec
    exact ⟨_, hexec⟩

/-! BLOCK_SIZE (44_striped128.md R113, R114). -/

theorem State.buffer_setCfgBs (s : State) (addr len blockSize : Word64) :
    ({ s with cfgBs := blockSize } : State).buffer addr len = s.buffer addr len :=
  State.buffer_congr fun _ _ _ => rfl

/-- Settles O35: neither the buffer nor the dealing of its words looks at CFG_BS. -/
theorem blockSizeHasNoInfluence : Obligations.BlockSizeHasNoInfluence := by
  intro s addr len blockSize
  rw [exec_supd_eq, exec_supd_eq, State.buffer_setCfgBs, andThen_assoc]
  congr 1
  funext bytes
  rw [andThen_assoc]
  rfl

/-- Cutting a length at a multiple of 8 and rounding the rest up to 8 rounds the whole up (44_striped128.md R113). -/
theorem block_add_ceil_eq_ceil {blockSize : Nat} (hblock : blockSize % 8 = 0) (len : Nat) :
    len / blockSize * blockSize + 8 * ((len % blockSize + 7) / 8) = 8 * ((len + 7) / 8) := by
  have hsplit := Nat.div_add_mod' len blockSize
  have hfull : len / blockSize * blockSize % 8 = 0 := by rw [Nat.mul_mod, hblock, Nat.mul_zero, Nat.zero_mod]
  omega

/-- Settles O36: the range is the word count in bytes, and padding to it adds no word. -/
theorem paddedRangeIsWordCount : Obligations.PaddedRangeIsWordCount := by
  intro bytes blockSize range _ hblock hrange
  rw [block_add_ceil_eq_ceil hblock] at hrange
  have hwords : range = 8 * nwords 8 bytes.length := by rw [hrange, nwords_eq (by decide), Nat.add_sub_assoc (by decide)]
  refine ⟨hrange, by omega, ?_⟩
  rw [hwords]
  exact wordsOf_append_padding (.inr rfl) bytes

/-! A file in chunks (44_striped128.md R120, R121). -/

/-- Whole words in front of some bytes add their count to the word count. -/
theorem nwords_mul_add {B : Nat} (hB : 0 < B) (q m : Nat) : nwords B (B * q + m) = q + nwords B m := by
  rw [nwords, fullWords, tailBytes, Nat.mul_add_div hB, Nat.mul_add_mod, Nat.add_assoc]
  rfl

theorem wordAt_eq_wordSlice (W : Nat) (bytes : List Byte) (k : Nat) :
    wordAt W bytes k = BitVec.ofNat W (littleEndian (wordSlice (W / 8) bytes k)) := rfl

/-- A buffer cut at a word boundary has the words of its two parts (41_tail_padder.md R84). -/
theorem wordsOf_append {W q : Nat} (hW : 0 < W / 8) {xs : List Byte} (hq : xs.length = W / 8 * q) (ys : List Byte) :
    wordsOf W (xs ++ ys) = wordsOf W xs ++ wordsOf W ys := by
  have hfirst : ∀ k ∈ List.range q, wordAt W (xs ++ ys) k = wordAt W xs k := by
    intro k hk
    have hfull : W / 8 * k + W / 8 ≤ xs.length := hq ▸ Nat.mul_le_mul_left _ (List.mem_range.mp hk)
    rw [wordAt_eq_wordSlice, wordAt_eq_wordSlice, wordSlice_eq_take, wordSlice_eq_take,
      List.drop_append_of_le_length (by omega), List.take_append_of_le_length (by rw [List.length_drop]; omega)]
  have hsecond : ∀ k, wordAt W (xs ++ ys) (q + k) = wordAt W ys k := by
    intro k
    rw [wordAt_eq_wordSlice, wordAt_eq_wordSlice, wordSlice_eq_take, wordSlice_eq_take, Nat.mul_add, ← hq,
      List.drop_length_add_append]
  rw [wordsOf, wordsOf, wordsOf, List.length_append, hq, nwords_mul_add hW, nwords_mul hW, List.range_add,
    List.map_append, List.map_congr_left hfirst, List.map_map]
  exact congrArg _ (List.map_congr_left fun k _ => hsecond k)

/-- Of a chunk that fills every stripe alike, and bytes after it, a stripe is dealt its words of each, both dealt from
position 0 (44_striped128.md R112: `w` is counted from 0 in every SUPD). -/
theorem dealt_wordsOf_append {xs : List Byte} (hxs : 8 * n ∣ xs.length) (ys : List Byte) :
    dealt n i 0 (wordsOf 64 (xs ++ ys)) = dealt n i 0 (wordsOf 64 xs) ++ dealt n i 0 (wordsOf 64 ys) := by
  obtain ⟨q, hq⟩ := hxs
  rw [Nat.mul_assoc] at hq
  have hround : (wordsOf 64 xs).length % n = 0 := by
    rw [wordsOf_length, hq, nwords_mul (by decide), Nat.mul_mod_right]
  rw [wordsOf_append (by decide) hq, dealt_append, Nat.zero_add, ← dealt_mod n i (wordsOf 64 xs).length, hround]

theorem ChunkDuty.tail {size : Nat} {c : List Byte} {cs : List (List Byte)} (h : ChunkDuty size (c :: cs)) :
    ChunkDuty size cs := by
  cases cs with
  | nil => exact nofun
  | cons c' cs => exact fun d hd => h d (List.mem_cons_of_mem c hd)

/-- A chunk with another one after it has a length that is a multiple of the duty's size. -/
theorem ChunkDuty.dvd_head {size : Nat} {c c' : List Byte} {cs : List (List Byte)} (h : ChunkDuty size (c :: c' :: cs)) :
    size ∣ c.length :=
  Nat.dvd_of_mod_eq_zero (h c List.mem_cons_self)

/-- Under the chunk duty a stripe is dealt its words of the first chunk and then those of the file's rest. -/
theorem ChunkDuty.dealt_flatten {size : Nat} {c : List Byte} {cs : List (List Byte)} (h : ChunkDuty size (c :: cs))
    (hsize : 8 * n ∣ size) :
    dealt n i 0 (wordsOf 64 (c :: cs).flatten) =
      dealt n i 0 (wordsOf 64 c) ++ dealt n i 0 (wordsOf 64 cs.flatten) := by
  cases cs with
  | nil => simp [wordsOf_nil, dealt]
  | cons c' cs => exact dealt_wordsOf_append (hsize.trans h.dvd_head) _

/-- R121's invariant: SUPDs over chunks that meet the duty leave in each stripe the words of all of them dealt to it. -/
theorem ChunkRun.getElem? {size : Nat} {chunks : List (List Byte)} (run : ChunkRun s chunks t)
    (hn : s.stripeCount = n) (hduty : ChunkDuty size chunks) (hsize : 8 * n ∣ size) (i : Nat) :
    t.stripes[i]? = s.stripes[i]?.map fun st => st.absorb (dealt n i 0 (wordsOf 64 chunks.flatten)) := by
  induction run with
  | done s t same => simp [same.stripes, wordsOf_nil, dealt]
  | chunk s s₁ s₂ t addr len c cs same buffer update rest ih =>
    have hn₁ : s₁.stripeCount = n := same.stripeCount_eq.trans hn
    have hn₂ : s₂.stripeCount = n := (congrArg BitVec.toNat (exec_keeps_config update).1).trans hn₁
    rw [ih hn₂ hduty.tail, buffer.supd_getElem? update, hn₁, same.stripes, Option.map_map, hduty.dealt_flatten hsize]
    congr 1
    funext st
    exact (Stripe.absorb_append ..).symm

/-- Settles O34: SCLR leaves (0, 0) in the stripe, and the chunks' SUPDs fold the file's lane into it. -/
theorem chunkedFileGivesLaneFolds : Obligations.ChunkedFileGivesLaneFolds := by
  intro s s₀ t chunks _ hblock hclear run hduty i (hi : i < s.stripeCount)
  cases hclear
  have hsize : 8 * s.stripeCount ∣ s.cfgN.toNat * s.cfgBs.toNat := by
    rw [Nat.mul_comm]
    exact Nat.mul_dvd_mul_left _ (Nat.dvd_of_mod_eq_zero hblock)
  have hstart : s.clearStripes.stripes[i]? = some (Stripe.holding (Pair.zero 64)) := List.getElem?_replicate_of_lt hi
  rw [run.getElem? s.clearStripes_stripeCount hduty hsize, hstart, Option.map_some, Stripe.absorb_holding,
    ← lane_eq_dealt hi]
  rfl

end Sys2Proof.Machine
end

section
/-! SUPPORT. The stops of a step (60_exceptions.md R132, R142): who raises the fault, and which refusals there are. -/

namespace Sys2Proof.Machine

variable {s : State} {i : Instr} {f : Fault} {r : Refusal}

theorem State.buffer_refusal {addr len : Word64} (h : s.buffer addr len = .refused r) : r = .bufferWraps ∨ r = .bufferNotReadable := by
  rcases s.buffer_cases addr len with ⟨-, e⟩ | ⟨-, -, e⟩ | ⟨_, -, e⟩ <;> cases e.symm.trans h
  · exact .inl rfl
  · exact .inr rfl

/-- Only the check of a buffer refuses a command; SCLR has no buffer. -/
theorem exec_refusal (h : exec i s = .refused r) : r = .bufferWraps ∨ r = .bufferNotReadable := by
  cases i with
  | f64 addr len => exact State.buffer_refusal ((exec_eq_refused_iff (.inl rfl) s r).mp h)
  | f128 addr len => exact State.buffer_refusal ((exec_eq_refused_iff (.inr (.inl rfl)) s r).mp h)
  | sclr => cases h
  | supd addr len => exact State.buffer_refusal ((exec_eq_refused_iff (.inr (.inr rfl)) s r).mp h)

/-- Only SUPD reads a register, so only SUPD faults (10_state.md R24). -/
theorem exec_fault (h : exec i s = .fault f) : f = .unspecifiedRegisterRead ∧ ∃ addr len, i = .supd addr len := by
  cases i with
  | f64 addr len =>
    rcases execF64_cases addr len s with ⟨-, e⟩ | ⟨-, -, e⟩ | ⟨_, -, e⟩ <;> cases e.symm.trans h
  | f128 addr len =>
    rcases execF128_cases addr len s with ⟨-, e⟩ | ⟨-, -, e⟩ | ⟨_, -, e⟩ <;> cases e.symm.trans h
  | sclr => cases h
  | supd addr len =>
    rcases execSupd_cases addr len s with ⟨-, e⟩ | ⟨-, -, e⟩ | ⟨_, -, ⟨_, -, -, e⟩ | ⟨-, e⟩⟩ <;> cases e.symm.trans h
    exact ⟨rfl, addr, len, rfl⟩

theorem State.hostRead_refusal {rsel : Word64} (h : s.hostRead rsel = .refused r) : r = .badRegisterSelect := by
  rcases s.hostRead_cases rsel with ⟨-, e⟩ | ⟨_, -, ⟨-, e⟩ | ⟨_, -, e⟩⟩ <;> cases e.symm.trans h
  rfl

theorem State.hostRead_fault {rsel : Word64} (h : s.hostRead rsel = .fault f) : f = .unspecifiedRegisterRead := by
  rcases s.hostRead_cases rsel with ⟨-, e⟩ | ⟨_, -, ⟨-, e⟩ | ⟨_, -, e⟩⟩ <;> cases e.symm.trans h
  rfl

/-- Settles O43: only a command or a read faults, and only these and a descriptor that is no command are refused. -/
theorem stopsAreTheNamedOnes : Obligations.StopsAreTheNamedOnes := by
  intro s
  rcases step_cases s with ⟨-, idle⟩ | ⟨d, rest, i, hp, hd, command⟩ | ⟨_, _, -, -, illegal⟩ | ⟨rsel, rest, hp, read⟩ |
    ⟨_, _, _, -, write⟩ | ⟨_, -, reset⟩
  · rw [idle]
    exact ⟨nofun, nofun⟩
  · rw [command]
    refine ⟨fun f h => ?_, fun r h => .inr ((exec_refusal h).imp_right .inl)⟩
    obtain ⟨hf, addr, len, rfl⟩ := exec_fault h
    exact ⟨hf, _, rest, hp, .inr ⟨d, addr, len, rfl, hd⟩⟩
  · rw [illegal]
    exact ⟨nofun, fun r h => .inl (by cases h; rfl)⟩
  · rw [read]
    exact ⟨fun f h => ⟨State.hostRead_fault h, _, rest, hp, .inl ⟨rsel, rfl⟩⟩,
      fun r h => .inr (.inr (.inr (State.hostRead_refusal h)))⟩
  · rw [write]
    exact ⟨nofun, nofun⟩
  · rw [reset]
    exact ⟨nofun, nofun⟩

end Sys2Proof.Machine
end

section
/-! SUPPORT. The reset event and the idle engine (70_reset_and_hazards.md R150, R164). -/

namespace Sys2Proof.Machine

/-- Settles O9: it is the law of a step with no host action left. -/
theorem idleEngineStays : Obligations.IdleEngineStays := fun _ hp => step_idle hp

/-- After a reset no stripe holds a value (10_state.md R25). -/
theorem State.specified_of_mem_resetEngine_stripes {s : State} {st : Stripe} (h : st ∈ s.resetEngine.stripes) :
    st.hi.specified = false ∧ st.lo.specified = false := by
  rw [List.eq_of_mem_replicate h]
  exact ⟨rfl, rfl⟩

/-- Settles O48: the step is the reset event on the state whose host list is the rest. -/
theorem resetEventForgetsRegisters : Obligations.ResetEventForgetsRegisters := fun _ _ hp =>
  ⟨_, step_reset hp, rfl, rfl, rfl, List.length_replicate, fun _ => State.specified_of_mem_resetEngine_stripes, rfl, rfl,
    fun _ => rfl, rfl, rfl⟩

/-- Settles O56: a reset between two word steps drops the flight and is the reset event on the engine's state. -/
theorem resetAbandonsCommand : Obligations.ResetAbandonsCommand := fun _ =>
  ⟨rfl, rfl, rfl, rfl, List.length_replicate, fun _ => State.specified_of_mem_resetEngine_stripes, rfl, rfl, fun _ => rfl⟩

end Sys2Proof.Machine
end

section
/-! SUPPORT. The chunks the host's striped procedure cuts a file into (70_reset_and_hazards.md R153, R156). -/

namespace Sys2Proof.Machine

variable {size fuel : Nat} {file c : List Byte}

@[simp] theorem chunksOf_nil (size fuel : Nat) : chunksOf size fuel [] = [] := by cases fuel <;> rfl

theorem chunksOf_succ (size fuel : Nat) (h : file ≠ []) :
    chunksOf size (fuel + 1) file = file.take size :: chunksOf size fuel (file.drop size) := by
  cases file with
  | nil => exact absurd rfl h
  | cons b bs => rfl

/-- With fuel for a chunk per byte, no byte of the file is left out. -/
theorem chunksOf_flatten (hsize : 0 < size) (hfuel : file.length ≤ fuel) : (chunksOf size fuel file).flatten = file := by
  induction fuel generalizing file with
  | zero => rw [List.eq_nil_of_length_eq_zero (Nat.le_zero.mp hfuel)]; rfl
  | succ fuel ih =>
    by_cases hfile : file = []
    · rw [hfile, chunksOf_nil, List.flatten_nil]
    · have hrest : (file.drop size).length ≤ fuel := by rw [List.length_drop]; omega
      rw [chunksOf_succ size fuel hfile, List.flatten_cons, ih hrest, List.take_append_drop]

theorem length_of_mem_chunksOf (hsize : 0 < size) (hc : c ∈ chunksOf size fuel file) : 0 < c.length ∧ c.length ≤ size := by
  induction fuel generalizing file with
  | zero => cases hc
  | succ fuel ih =>
    by_cases hfile : file = []
    · rw [hfile, chunksOf_nil] at hc; cases hc
    · rw [chunksOf_succ size fuel hfile, List.mem_cons] at hc
      rcases hc with rfl | hc
      · have := List.length_pos_of_ne_nil hfile
        rw [List.length_take]
        omega
      · exact ih hc

/-- A chunk with another one after it was cut from more than `size` bytes. -/
theorem length_of_mem_dropLast_chunksOf (hc : c ∈ (chunksOf size fuel file).dropLast) : c.length = size := by
  induction fuel generalizing file with
  | zero => cases hc
  | succ fuel ih =>
    by_cases hfile : file = []
    · rw [hfile, chunksOf_nil] at hc; cases hc
    · rw [chunksOf_succ size fuel hfile] at hc
      by_cases hlast : chunksOf size fuel (file.drop size) = []
      · rw [hlast] at hc; cases hc
      · have hmore : file.drop size ≠ [] := fun hnil => hlast (by rw [hnil, chunksOf_nil])
        rw [List.dropLast_cons_of_ne_nil hlast, List.mem_cons] at hc
        rcases hc with rfl | hc
        · rw [ne_eq, List.drop_eq_nil_iff] at hmore
          rw [List.length_take]
          omega
        · exact ih hc

/-- Settles O50: the duty holds because every chunk but the last has exactly the size. -/
theorem procedureMeetsChunkDuty : Obligations.ProcedureMeetsChunkDuty := fun size _ hsize =>
  ⟨chunksOf_flatten hsize le_rfl,
    fun c hc => by rw [length_of_mem_dropLast_chunksOf hc, Nat.mod_self],
    fun _ hc => length_of_mem_chunksOf hsize hc,
    fun _ hc => length_of_mem_dropLast_chunksOf hc⟩

end Sys2Proof.Machine
end

section
/-! SUPPORT. The run of the host's striped procedure (70_reset_and_hazards.md R153, R164), part by part: the bytes of a
chunk are written, SUPD folds them, and after the last chunk the stripes are read. -/

namespace Sys2Proof.Machine

variable {s t u : State} {acts acts' : List HostAction} {i : Instr} {addr len buf : Word64} {bytes c : List Byte}
  {a size : Nat}

/-! What some of the host's actions do, whatever waits after them. -/

/-- The state with these actions waiting at the host. -/
def State.withPending (s : State) (rest : List HostAction) : State := { s with pending := rest }

/-- The actions lead from `s` to `t` by a safe run, whatever actions wait after them. -/
def Performs (acts : List HostAction) (s t : State) : Prop :=
  ∀ rest, ∃ k, SafeRun k (s.withPending (acts ++ rest)) (t.withPending rest)

theorem Performs.nil (s : State) : Performs [] s s := fun _ => ⟨0, safeRun_zero _⟩

theorem Performs.append (h : Performs acts s t) (h' : Performs acts' t u) : Performs (acts ++ acts') s u := by
  intro rest
  obtain ⟨k, hk⟩ := h (acts' ++ rest)
  obtain ⟨m, hm⟩ := h' rest
  rw [List.append_assoc]
  exact ⟨k + m, safeRun_append hk hm⟩

theorem Performs.of_step {act : HostAction}
    (h : ∀ rest, step (s.withPending (act :: rest)) = .next (t.withPending rest)) : Performs [act] s t :=
  fun rest => ⟨1, safeRun_one (h rest)⟩

theorem State.Buffer.withPending (h : s.Buffer addr len bytes) (rest : List HostAction) :
    (s.withPending rest).Buffer addr len bytes := ⟨h.fits, h.length, h.holds⟩

/-- A command that completes does so whatever waits at the host, and leaves it waiting. -/
theorem exec_withPending (h : exec i s = .next t) (rest : List HostAction) :
    exec i (s.withPending rest) = .next (t.withPending rest) := by
  rcases exec_next_cases h with ⟨addr, len, bytes, rfl, hbuf, rfl⟩ | ⟨addr, len, bytes, rfl, hbuf, rfl⟩ | ⟨rfl, rfl⟩ |
    ⟨addr, len, bytes, S, rfl, hbuf, hdeal, -, rfl⟩
  · exact (hbuf.withPending rest).exec_f64
  · exact (hbuf.withPending rest).exec_f128
  · rfl
  · exact (execSupd_of_buffer (hbuf.withPending rest)).trans (congrArg (andThen · _) hdeal)

theorem performs_command (h : exec i s = .next t) : Performs [.command (encode i)] s t :=
  .of_step fun rest => (step_command rfl (decodeOfEncode i)).trans (exec_withPending h rest)

theorem State.withPending_hostWrite (s : State) (rest : List HostAction) (a : Nat) (b : Byte) :
    (s.hostWrite a b).withPending rest = (s.withPending rest).hostWrite a b :=
  apply_ite (fun t : State => t.withPending rest) ..

theorem performs_write (s : State) (a : Word64) (b : Byte) : Performs [.write a b] s (s.hostWrite a.toNat b) :=
  .of_step fun rest => by rw [State.withPending_hostWrite]; exact step_write rfl

/-- Reading a register of this engine that holds a value, its select number below 2^64 (10_state.md R19). -/
theorem performs_readOf {r : RegName} {v : Word64} (hselect : r.select < 2 ^ 64)
    (hstripe : ∀ i, r = .stripeLo i ∨ r = .stripeHi i → i < s.stripeCount) (hv : s.readRegister? r = some v) :
    Performs [readOf r] s { s with output := s.output ++ [v] } :=
  .of_step fun _ => step_read_value rfl (selectedRegister_select s.stripeCount r hselect hstripe) hv

/-! Writing a chunk into memory. -/

/-- The state after the host has written some bytes from an address on. -/
def State.placed (s : State) : Nat → List Byte → State
  | _, [] => s
  | a, b :: bs => (s.hostWrite a b).placed (a + 1) bs

theorem State.placed_cons (s : State) (a : Nat) (b : Byte) (bs : List Byte) :
    s.placed a (b :: bs) = (s.hostWrite a b).placed (a + 1) bs := rfl

/-- Placing bytes touches memory only. -/
theorem State.placed_eq (s : State) (a : Nat) (bytes : List Byte) :
    s.placed a bytes = { s with mem := (s.placed a bytes).mem } := by
  induction bytes generalizing s a with
  | nil => rfl
  | cons b bs ih => rw [State.placed_cons, ih, State.hostWrite_eq]

theorem State.SameRegisters.placed (s : State) (a : Nat) (bytes : List Byte) : s.SameRegisters (s.placed a bytes) := by
  rw [State.placed_eq]
  exact ⟨rfl, rfl, rfl, rfl, rfl, rfl⟩

@[simp] theorem State.placed_output (s : State) (a : Nat) (bytes : List Byte) : (s.placed a bytes).output = s.output := by
  rw [State.placed_eq]

theorem State.readByte_placed_below {x : Nat} (hx : x < a) : (s.placed a bytes).readByte x = s.readByte x := by
  induction bytes generalizing s a with
  | nil => rfl
  | cons b bs ih => rw [State.placed_cons, ih (by omega), State.readByte_hostWrite_other (by omega)]

/-- Where nothing is withheld, memory holds the bytes that were placed (log entry 6). -/
theorem State.holds_placed (hfree : ∀ x, a ≤ x → x < a + bytes.length → s.withholds x = false) :
    (s.placed a bytes).Holds a bytes := by
  induction bytes generalizing s a with
  | nil => exact nofun
  | cons b bs ih =>
    rw [List.length_cons] at hfree
    have hfirst : (s.placed a (b :: bs)).readByte a = some b := by
      rw [State.placed_cons, State.readByte_placed_below (Nat.lt_succ_self a),
        State.readByte_hostWrite_same (hfree a le_rfl (by omega))]
    have hrest : (s.placed a (b :: bs)).Holds (a + 1) bs := ih fun x hx hx' => by
      rw [State.hostWrite_withholds, hfree x (by omega) (by omega)]
    intro i hi
    cases i with
    | zero => exact hfirst
    | succ i =>
      rw [show a + (i + 1) = a + 1 + i by omega]
      exact hrest i (Nat.lt_of_succ_lt_succ hi)

/-- Below 2^64 the host's writes place the bytes. -/
theorem performs_placeBytes (s : State) (hfits : a + bytes.length ≤ 2 ^ 64) :
    Performs (placeBytes a bytes) s (s.placed a bytes) := by
  induction bytes generalizing s a with
  | nil => exact .nil s
  | cons b bs ih =>
    rw [List.length_cons] at hfits
    have hfirst := performs_write s (BitVec.ofNat 64 a) b
    rw [BitVec.toNat_ofNat, Nat.mod_eq_of_lt (by omega)] at hfirst
    exact hfirst.append (ih (s.hostWrite a b) (by omega))

/-! The loop over the chunks. -/

/-- What the host does with one chunk: it writes the bytes into the block buffer and issues SUPD. -/
def chunkActions (buf : Word64) (c : List Byte) : List HostAction :=
  placeBytes buf.toNat c ++ [.command (encode (.supd buf (BitVec.ofNat 64 c.length)))]

/-- Reading one stripe, `hi` then `lo`. -/
def stripeReads (i : Nat) : List HostAction := [readOf (.stripeHi i), readOf (.stripeLo i)]

theorem stripedFile_eq (n blockSize : Nat) (buf : Word64) (file : List Byte) :
    stripedFile n blockSize buf file =
      [.command (encode .sclr)] ++ (chunksOf (n * blockSize) file.length file).flatMap (chunkActions buf) ++
        (List.range n).flatMap stripeReads := rfl

/-- The invariant of the loop: every stripe holds a value, and the host can write the block buffer. -/
structure State.ReadyForChunks (s : State) (buf : Word64) (size : Nat) : Prop where
  positive : 0 < s.stripeCount
  length : s.stripes.length = s.stripeCount
  values : ∀ st ∈ s.stripes, st.isSpecified = true
  free : ∀ x, buf.toNat ≤ x → x < buf.toNat + size → s.withholds x = false

theorem Stripe.isSpecified_absorb {st : Stripe} (h : st.isSpecified = true) (ws : List Word64) :
    (st.absorb ws).isSpecified = true := by
  cases ws with
  | nil => exact h
  | cons x xs => rw [Stripe.absorb_cons, Stripe.absorb_holding, Stripe.isSpecified_holding]

theorem State.ReadyForChunks.stripesSpecified (h : s.ReadyForChunks buf size) (k : Nat) : s.StripesSpecified k := by
  intro i hi _
  rw [← Bool.and_eq_true]
  exact h.values _ (List.getElem_mem hi)

theorem State.ReadyForChunks.placed (h : s.ReadyForChunks buf size) (a : Nat) (bytes : List Byte) :
    (s.placed a bytes).ReadyForChunks buf size := by
  rw [State.placed_eq]
  exact ⟨h.positive, h.length, h.values, h.free⟩

/-- SUPD on an admitted buffer completes and keeps the invariant. -/
theorem State.ReadyForChunks.exec_supd (h : s.ReadyForChunks buf size) (hbuf : s.Buffer addr len bytes) :
    ∃ S, exec (.supd addr len) s = .next (s.setStripes S) ∧ (s.setStripes S).ReadyForChunks buf size := by
  obtain ⟨S, hexec, hlen⟩ := hbuf.exec_supd h.positive h.length (h.stripesSpecified _)
  refine ⟨S, hexec, h.positive, hlen, fun st' hst' => ?_, h.free⟩
  obtain ⟨i, hi⟩ := List.mem_iff_getElem?.mp hst'
  rw [hbuf.supd_getElem? hexec, Option.map_eq_some_iff] at hi
  obtain ⟨st, hst, rfl⟩ := hi
  exact Stripe.isSpecified_absorb (h.values st (List.mem_of_getElem? hst)) _

/-- A chunk that fits the block buffer is there, for SUPD to read, once the host has written it. -/
theorem State.ReadyForChunks.buffer_placed (h : s.ReadyForChunks buf size) (hc : c.length ≤ size) (hsize : size < 2 ^ 64)
    (hfits : buf.toNat + size ≤ 2 ^ 64) :
    (s.placed buf.toNat c).Buffer buf (BitVec.ofNat 64 c.length) c := by
  have hlen : (BitVec.ofNat 64 c.length).toNat = c.length := by
    rw [BitVec.toNat_ofNat, Nat.mod_eq_of_lt (by omega)]
  exact ⟨by omega, hlen, State.holds_placed fun x hx hx' => h.free x hx (by omega)⟩

/-- The loop runs to its end, and is a run over the chunks. -/
theorem State.ReadyForChunks.performs_chunks {cs : List (List Byte)} (h : s.ReadyForChunks buf size)
    (hsize : size < 2 ^ 64) (hfits : buf.toNat + size ≤ 2 ^ 64) (hcs : ∀ c ∈ cs, c.length ≤ size) :
    ∃ t, Performs (cs.flatMap (chunkActions buf)) s t ∧ ChunkRun s cs t ∧ t.stripeCount = s.stripeCount ∧
      t.output = s.output := by
  induction cs generalizing s with
  | nil => exact ⟨s, .nil s, .done s s (.setPending s s.pending), rfl, rfl⟩
  | cons c cs ih =>
    rw [List.forall_mem_cons] at hcs
    obtain ⟨hc, hcs⟩ := hcs
    have same := State.SameRegisters.placed s buf.toNat c
    have hbuf := h.buffer_placed hc hsize hfits
    obtain ⟨S, hexec, hready⟩ := (h.placed buf.toNat c).exec_supd hbuf
    obtain ⟨t, hperforms, hrun, hcount, houtput⟩ := ih hready hcs
    have hwrites := performs_placeBytes (bytes := c) s (show buf.toNat + c.length ≤ 2 ^ 64 by omega)
    refine ⟨t, ?_, .chunk s _ _ t _ _ c cs same hbuf hexec hrun, hcount.trans same.stripeCount_eq,
      houtput.trans (State.placed_output ..)⟩
    rw [List.flatMap_cons]
    exact (hwrites.append (performs_command hexec)).append hperforms

/-! Reading the stripes. -/

/-- The values that reading a stripe accumulator hands to the host. -/
def readings (p : Pair 64) : List Word64 := [p.hi, p.lo]

theorem performs_stripeReads {i : Nat} {p : Pair 64} (hi : i < s.stripeCount) (hselect : 0x100 + 2 * i + 1 < 2 ^ 64)
    (hst : s.stripes[i]? = some (Stripe.holding p)) :
    Performs (stripeReads i) s { s with output := s.output ++ readings p } := by
  have hhi : Performs [readOf (.stripeHi i)] s { s with output := s.output ++ [p.hi] } :=
    performs_readOf hselect (by rintro j (hj | hj) <;> cases hj; exact hi) (State.readRegister?_stripeHi hst)
  have hlo := performs_readOf (s := { s with output := s.output ++ [p.hi] }) (r := .stripeLo i)
    (Nat.lt_of_succ_lt hselect) (by rintro j (hj | hj) <;> cases hj; exact hi) (State.readRegister?_stripeLo hst)
  have hboth := hhi.append hlo
  rw [List.append_assoc] at hboth
  exact hboth

/-- Reading some stripes, one after the other. -/
theorem performs_flatMap_stripeReads {is : List Nat} {p : Nat → Pair 64}
    (his : ∀ i ∈ is, i < s.stripeCount ∧ s.stripes[i]? = some (Stripe.holding (p i)))
    (hselect : 0x100 + 2 * s.stripeCount ≤ 2 ^ 64) :
    Performs (is.flatMap stripeReads) s { s with output := s.output ++ is.flatMap fun i => readings (p i) } := by
  induction is generalizing s with
  | nil => rw [List.flatMap_nil, List.flatMap_nil, List.append_nil]; exact .nil s
  | cons i is ih =>
    rw [List.forall_mem_cons] at his
    obtain ⟨⟨hi, hst⟩, his⟩ := his
    have hfirst := performs_stripeReads hi (by omega) hst
    have hrest := ih (s := { s with output := s.output ++ readings (p i) }) his hselect
    rw [List.append_assoc] at hrest
    exact hfirst.append hrest

/-! The whole procedure. -/

/-- SCLR makes a legal engine ready for the loop, whatever its stripes held. -/
theorem State.Legal.readyForChunks (h : s.Legal)
    (hfree : ∀ x, buf.toNat ≤ x → x < buf.toNat + size → s.withholds x = false) :
    s.clearStripes.ReadyForChunks buf size := by
  obtain ⟨hn, -, -⟩ := (params_legal_iff _).mp h.parameters
  exact ⟨hn, List.length_replicate, fun st hst => by rw [List.eq_of_mem_replicate hst]; rfl, hfree⟩

/-- Settles O51: SCLR prepares the loop, the loop is a run over chunks that meet the duty, so every stripe ends at the fold
of its lane, and the reads hand these folds to the host. -/
theorem stripedProcedureDeliversLaneFolds : Obligations.StripedProcedureDeliversLaneFolds := by
  intro s buf file hlegal hsize hfits hselect hfree hp
  obtain ⟨hn, hpos, hblock⟩ := (params_legal_iff _).mp hlegal.parameters
  obtain ⟨hflat, hduty, hchunks, -⟩ := procedureMeetsChunkDuty _ file (Nat.mul_pos hn (Nat.zero_lt_of_lt hpos))
  have hclear : exec .sclr s = .next s.clearStripes := rfl
  obtain ⟨t, hloop, hrun, hcount, houtput⟩ :=
    (hlegal.readyForChunks hfree).performs_chunks hsize hfits fun c hc => (hchunks c hc).2
  have hfolds := chunkedFileGivesLaneFolds s _ t _ hn hblock hclear hrun hduty
  rw [hflat] at hfolds
  have hreads := performs_flatMap_stripeReads (s := t) (is := List.range s.cfgN.toNat)
    (p := fun i => fold (lane s.cfgN.toNat i (wordsOf 64 file)))
    (fun i hi => ⟨(List.mem_range.mp hi).trans_eq hcount.symm, hfolds i (List.mem_range.mp hi)⟩)
    (by rw [hcount]; exact hselect)
  obtain ⟨k, hk⟩ := (((performs_command hclear).append hloop).append hreads) []
  rw [← stripedFile_eq, List.append_nil, ← hp, houtput] at hk
  exact ⟨k, _, hk, rfl, rfl⟩

end Sys2Proof.Machine
end

section
/-! SUPPORT. The spec's test vectors for the whole-buffer engines (95_test_vectors.md): the words of each buffer, and what a
fold of so few words is. -/

namespace Sys2Proof.Machine

variable {W : Nat}

/-! Folds of one and of two words (40_word_accumulator.md R72). -/

/-- A single word ends up in both halves. -/
theorem fold_singleton (x : BitVec W) : fold [x] = ⟨x, x⟩ := by
  simp [fold, acc, Pair.zero]

/-- Of two words, the high half counts the first one twice. -/
theorem fold_pair (x y : BitVec W) : fold [x, y] = ⟨x + (x + y), x + y⟩ := by
  simp [fold, acc, Pair.zero]

/-! The words of the vectors' buffers, in the column order of 95_test_vectors.md. -/

theorem wordsOf32_one : wordsOf 32 [0x01, 0x00, 0x00, 0x00] = [0x00000001#32] := by decide

theorem wordsOf32_one_zero :
    wordsOf 32 [0x01, 0x00, 0x00, 0x00, 0x00, 0x00, 0x00, 0x00] = [0x00000001#32, 0x00000000#32] := by decide

theorem wordsOf32_oneToEight :
    wordsOf 32 [0x01, 0x02, 0x03, 0x04, 0x05, 0x06, 0x07, 0x08] = [0x04030201#32, 0x08070605#32] := by decide

theorem wordsOf64_oneToEight :
    wordsOf 64 [0x01, 0x02, 0x03, 0x04, 0x05, 0x06, 0x07, 0x08] = [0x0807060504030201#64] := by decide

/-- Settles O32: F64 and F128 write the fold of a buffer's words wherever it lies, and each vector has at most two words. -/
theorem knownVectors : Obligations.KnownVectors := by
  refine ⟨fun s addr hbuf => ?V2, fun s addr hbuf => ?V19, fun s addr hbuf => ⟨?V15, ?V35⟩⟩
  case V2 => rw [hbuf.exec_f64, wordsOf32_one, fold_singleton]; rfl
  case V19 => rw [hbuf.exec_f64, wordsOf32_one_zero, fold_pair]; rfl
  case V15 => rw [hbuf.exec_f64, wordsOf32_oneToEight, fold_pair]; rfl
  case V35 => rw [hbuf.exec_f128, wordsOf64_oneToEight, fold_singleton]; rfl

end Sys2Proof.Machine
end
